-- ==== Sys2Proof/Word.lean ====
section
/-! DEFINITION. The word types of the block (00_scope.md R10) and the type of a sparse byte memory. -/

namespace Sys2Proof

/-- A data byte, `u8` (R10). -/
abbrev Byte := BitVec 8

/-- A data word, `u16` (R10). -/
abbrev Word := BitVec 16

/-- A CPU address, 16 bits (R10, R90). -/
abbrev Addr := BitVec 16

/-- A pixel index, two bits (R98). -/
abbrev PixelIndex := BitVec 2

/-- A 24-bit colour, `0xRRGGBB` (R99). -/
abbrev Colour := BitVec 24

/-- A byte memory as plain data: the cells that differ from what an unlisted cell reads as, by rising
index.  `Memory.wf` (Machine/Memory.lean) says the form. -/
abbrev Memory := List Host.Cell

end Sys2Proof
end

