-- ==== Sys2Proof/Machine/Memory.lean ====
section
/-! DEFINITION. Reading and writing one byte of a sparse memory, and its canonical form. -/

namespace Sys2Proof

/-- What an unlisted cell reads as.  DESIGN CHOICE (log 2): only the listing depends on it, except for
work RAM at `State.reset`, whose contents the spec leaves open. -/
def Memory.blank : Byte := 0x00

/-- One byte of a memory. -/
def Memory.read : Memory → Nat → Byte
  | [], _ => Memory.blank
  | (k', v') :: m, k => if k = k' then v' else Memory.read m k

/-- A cell put before the memory `m`, unless an unlisted cell already reads as it. -/
def Memory.put (k : Nat) (v : Byte) (m : Memory) : Memory :=
  if v = Memory.blank then m else (k, v) :: m

/-- One byte of a memory replaced, in canonical form. -/
def Memory.write : Memory → Nat → Byte → Memory
  | [], k, v => Memory.put k v []
  | (k', v') :: m, k, v =>
    if k < k' then Memory.put k v ((k', v') :: m)
    else if k = k' then Memory.put k v m
    else (k', v') :: Memory.write m k v

/-- The canonical form: indices strictly rising, and no listed byte equal to `Memory.blank`. -/
def Memory.wf : Memory → Bool
  | [] => true
  | (k, v) :: m => (v != Memory.blank) && m.all (fun c => decide (k < c.1)) && Memory.wf m

/-- Every listed cell has an index below `size`. -/
def Memory.within (size : Nat) (m : Memory) : Bool :=
  m.all fun c => decide (c.1 < size)

end Sys2Proof
end

