-- ==== Sys2Proof/Config.lean ====
section
/-! DEFINITION. The parameters of 00_scope.md R11 to R13, as plain data fixed for a session (R357), and the
free values.  A `Config` stands in `State.cfg`, so a statement about every state holds for every value of
every parameter; no step changes it. -/

namespace Sys2Proof

/-- `SET_WORD_MODE` (R11, R126, D3). -/
inductive SetWordMode where
  /-- Both bytes go to the one address, low byte first (option (a), the observed source). -/
  | sameAddress
  /-- The low byte goes to `addr`, the high byte to `addr + 1` (option (b)). -/
  | split
deriving DecidableEq, Repr, Inhabited

/-- `ADDR_OVERFLOW` (R12, D4): what an address or `PC` passing 0xFFFF does. -/
inductive AddrOverflow where
  | fault
  | wrap
deriving DecidableEq, Repr, Inhabited

/-- `ROM_RANGE` (R12, D5): what a ROM read beyond `ROM_SIZE` does. -/
inductive RomRange where
  | fault
  | mirror
deriving DecidableEq, Repr, Inhabited

/-- A read-only finite byte sequence: its length, and its bytes as a sparse memory. -/
structure ByteSeq where
  size  : Nat
  cells : Memory
deriving DecidableEq, Repr, Inhabited

/-- The parameters the spec leaves to the configuration (R11, R12, R13). -/
structure Config where
  /-- `SET_WORD_MODE`; the spec takes no default (R11). -/
  setWordMode   : SetWordMode
  /-- `ADDR_OVERFLOW`, default `Fault` (R12). -/
  addrOverflow  : AddrOverflow
  /-- `ROM_RANGE`, default `Fault` (R12). -/
  romRange      : RomRange
  /-- `ROM` and `ROM_SIZE` (R12, R32). -/
  rom           : ByteSeq
  /-- `TILE_MEM` (R12, R43). -/
  tileMem       : ByteSeq
  /-- `OAM_ADDR_SEL`, default 3 (R12, R241). -/
  oamAddrSel    : BitVec 3
  /-- `OAM_DATA_SEL`, default 4 (R12, R241). -/
  oamDataSel    : BitVec 3
  /-- `MASTER_PALETTE` (R13, R44, R190). -/
  masterPalette : Vector Colour 64
  /-- `WRAM_INIT`, the 2048 bytes work RAM holds at startup (R12, R31). -/
  wramInit      : Memory
  /-- `PC0` (R12, R350). -/
  pc0           : Addr
  /-- `S0` (R12, R350). -/
  s0            : Byte
deriving DecidableEq, Repr, Inhabited

/-- `PPU_EXT_READ` (R12, R244, R245, D11): the bytes the external register block returns, one for each draw.
A free value: it has no body. -/
opaque Config.ppuExtRead : Nat → Byte

/-- The colours of the palette that `Config.atReset` names.  A free value (R13, D14): the spec lists none. -/
opaque Config.paletteColour : Nat → Colour

/-- What the spec says of the parameters: `ROM_SIZE` is 1 to 32768 (R12), the bytes of a sequence lie inside
it, `WRAM_INIT` is 2048 bytes, and the two OAM registers have two selects (R241). -/
def Config.wf (c : Config) : Bool :=
  decide (1 ≤ c.rom.size) && decide (c.rom.size ≤ 0x8000)
    && c.rom.cells.wf && c.rom.cells.within c.rom.size
    && c.tileMem.cells.wf && c.tileMem.cells.within c.tileMem.size
    && decide (c.oamAddrSel ≠ c.oamDataSel)
    && c.wramInit.wf && c.wramInit.within 0x800

/-- The configuration of `State.reset`: the spec's defaults (R12), and for the parameters it leaves open the
values of log 3 (DESIGN CHOICE and PRESUMED). -/
def Config.atReset : Config where
  setWordMode   := .sameAddress
  addrOverflow  := .fault
  romRange      := .fault
  rom           := { size := 0x8000, cells := [] }
  tileMem       := { size := 0x2000, cells := [] }
  oamAddrSel    := 3
  oamDataSel    := 4
  masterPalette := Vector.ofFn fun i => Config.paletteColour i.val
  wramInit      := []
  pc0           := 0x0000
  s0            := 0x00

end Sys2Proof
end

