-- ==== Sys2Proof/Syntax.lean ====
section
/-! DEFINITION. The operations of the block (R3, 30_encoding.md R111), one constructor for each row of
spec/opcode_table.json, with their operands; and the raw request record they come in (R110). -/

namespace Sys2Proof

/-- A SpriteAttribute (R230). -/
structure SpriteAttribute where
  verticalFlip   : Bool
  horizontalFlip : Bool
  hide           : Bool
  palette        : BitVec 2
deriving DecidableEq, Repr, Inhabited

/-- A decoded tile: the pixel index of `(x, y)` is element `8y + x` (R97 to R99). -/
abbrev Tile := Vector PixelIndex 64

/-- A colored tile: the colour of `(x, y)` is element `8y + x` (R99). -/
abbrev ColoredTile := Vector Colour 64

/-- A palette selection: element `i` is the master-palette index for pixel index `i`, carried as a byte
(R100). -/
abbrev PaletteSelection := Vector Byte 4

/-- The OAM I/O intent (R39), with the reserved port code 3 of R98. -/
inductive Intent where
  | idle
  | writeOamAddr
  | writeOamData
  /-- Port code 3: behaves as `idle` (R98, R215).  No operation of the block sets it. -/
  | reserved
deriving DecidableEq, Repr, Inhabited

/-- The 19 operations (R111).  Coordinates are naturals, so that the fault of R172 and R193 has a form that
raises it; the encodable ones are below 8 (WellFormed.lean). -/
inductive Instr where
  /-- `get_byte(a)` -/
  | getByte (a : Addr)
  /-- `get_word(a)` -/
  | getWord (a : Addr)
  /-- `set_byte(a, v)` -/
  | setByte (a : Addr) (v : Byte)
  /-- `set_word(a, w)` -/
  | setWord (a : Addr) (w : Word)
  /-- `push_byte(v)` -/
  | pushByte (v : Byte)
  /-- `push_word(w)` -/
  | pushWord (w : Word)
  /-- `pop_byte()` -/
  | popByte
  /-- `pop_word()` -/
  | popWord
  /-- `increment_byte()` -/
  | incrementByte
  /-- `increment_word()` -/
  | incrementWord
  /-- `oam_read(i)` -/
  | oamRead (i : Byte)
  /-- `oam_write(i, v)` -/
  | oamWrite (i : Byte) (v : Byte)
  /-- `oam_sync()` -/
  | oamSync
  /-- `tile_decode(n)` -/
  | tileDecode (n : Nat)
  /-- `tile_get(T, x, y)` -/
  | tileGet (t : Tile) (x y : Nat)
  /-- `colorize(T, pal)` -/
  | colorize (t : Tile) (pal : PaletteSelection)
  /-- `colored_get(C, x, y)` -/
  | coloredGet (c : ColoredTile) (x y : Nat)
  /-- `attr_decode(b)` -/
  | attrDecode (b : Byte)
  /-- `attr_encode(s)` -/
  | attrEncode (attr : SpriteAttribute)
deriving DecidableEq, Repr, Inhabited

/-- A request as a client puts it on the block's ports (R110).  An operation reads the fields its row of R111
names and ignores the others. -/
structure Request where
  op    : BitVec 5
  a     : BitVec 16
  d     : BitVec 16
  n     : Nat
  x     : BitVec 3
  y     : BitVec 3
  tile  : BitVec 128
  pal   : BitVec 32
  ctile : BitVec 1536
  attr5 : BitVec 5
deriving DecidableEq, Repr, Inhabited

end Sys2Proof
end

