-- ==== Sys2Proof/Machine/State.lean ====
section
/-! DEFINITION. The state of the block (10_state.md R30 to R47), its configuration, and the model's own record of
its ports; and the state after reset (70_reset_and_hazards.md R350). -/

namespace Sys2Proof.Machine

/-- One entry of the object attribute table (R40).  The attribute is kept as decoded fields (R42). -/
structure OamEntry where
  y         : Byte
  tileIndex : Byte
  attr      : SpriteAttribute
  x         : Byte
deriving DecidableEq, Repr, Inhabited

/-- A fault record `(code, info)` (R46, R300, R301): one constructor for each code, with the information that
R301's table says is recorded. -/
inductive FaultRecord where
  /-- Code 1, `TILE_INDEX_FAULT`, raised by `tile_decode`: the tile number. -/
  | tileIndex (n : Nat)
  /-- Code 2, `PALETTE_INDEX_FAULT`, raised by `colorize`: the entry's value. -/
  | paletteIndex (v : Byte)
  /-- Code 3, `ADDR_OVERFLOW_FAULT`: the address or `PC`. -/
  | addrOverflow (a : Addr)
  /-- Code 4, `ROM_RANGE_FAULT`: the CPU address. -/
  | romRange (a : Addr)
  /-- Code 5, `TILE_COORD_FAULT`, raised by `tile_get` and `colored_get`: both coordinates. -/
  | tileCoord (x y : Nat)
deriving DecidableEq, Repr, Inhabited

/-- The kinds of diagnostic (R310). -/
inductive DiagKind where
  | unmappedRead
  | unmappedWrite
  | romWrite
deriving DecidableEq, Repr, Inhabited

/-- A diagnostic event `Diag(kind, a)` (R47, R310). -/
structure DiagEvent where
  kind : DiagKind
  addr : Addr
deriving DecidableEq, Repr, Inhabited

/-- A CPU write handed to the external register block "with its address and value" (R245). -/
structure ExtWrite where
  addr  : Addr
  value : Byte
deriving DecidableEq, Repr, Inhabited

/-- A response to the requesting client (R110, R300, R303). -/
inductive Response where
  /-- The operation has no result. -/
  | done
  | byte (v : Byte)
  | word (w : Word)
  | pixel (p : PixelIndex)
  | colour (c : Colour)
  | tile (t : Tile)
  | coloredTile (c : ColoredTile)
  | attr (s : SpriteAttribute)
  /-- `Fault(code, info)` (R300). -/
  | fault (f : FaultRecord)
  /-- `Refused(op)` (R303). -/
  | refused (op : BitVec 5)
deriving DecidableEq, Repr, Inhabited

/-- What the environment does to the block, in the one order it chooses (R7, R9, R362). -/
inductive Input where
  /-- A client issues a request (R110). -/
  | request (r : Request)
  /-- The external CPU writes `PC` directly (R34, R162). -/
  | cpuWritesPc (v : Addr)
  /-- The external CPU writes `S` directly (10_state.md R30, R357). -/
  | cpuWritesS (v : Byte)
deriving DecidableEq, Repr, Inhabited

/-- The state.  The first nine fields are R30's tuple; `cfg` is the read-only configuration R30 names; the rest is
the model's own record of the block's ports (log 6, 7, 8, 9). -/
structure State where
  /-- `WRAM[0..0x7FF]` (R31), by work-RAM index. -/
  wram        : Memory
  /-- `PC` (R34). -/
  pc          : Addr
  /-- `S` (R35). -/
  sp          : Byte
  /-- `oam_addr` (R37). -/
  oamAddr     : Byte
  /-- `oam_data` (R38). -/
  oamData     : Byte
  /-- `intent` (R39). -/
  intent      : Intent
  /-- `OAM[0..63]` (R40). -/
  oam         : Vector OamEntry 64
  /-- `fault` (R46). -/
  fault       : Option FaultRecord
  /-- `diag` (R47), oldest first. -/
  diag        : List DiagEvent
  /-- `ROM`, `TILE_MEM`, `MASTER_PALETTE` and the parameters (R30, R11 to R13). -/
  cfg         : Config
  /-- The inputs still to come, in the order they are served. -/
  inputs      : List Input
  /-- The response to the last request (R110). -/
  response    : Option Response
  /-- The writes handed to the external register block (R245), oldest first. -/
  extWrites   : List ExtWrite
  /-- How many free values the block has drawn: the index of the next one. -/
  draws       : Nat
  /-- A request has been refused in this run (R303). -/
  refusalMark : Bool
deriving DecidableEq, Repr, Inhabited

end Sys2Proof.Machine

namespace Sys2Proof

/-- The block's state fields after a fault (R300, U14: every component other than `fault` is any value).  A free
value: it has no body. -/
opaque Config.afterFault : Nat → Machine.State

end Sys2Proof

namespace Sys2Proof.Machine

/-- Why a step stops. -/
inductive Fault where
  /-- Raised by `step`, and by no meaning, in a state whose fault record is set: the block serves no further
  request (R46, R300).  Safe: the spec lets the block do nothing more. -/
  | stopped (f : FaultRecord)
deriving DecidableEq, Repr

/-- Why the model has no meaning for an instruction. -/
inductive Refusal where
  /-- Raised by an arm of `exec` whose operation has no meaning yet; no arm of this model is one.  Safe: the run
  ends. -/
  | notModelled (mnemonic : String)
deriving DecidableEq, Repr

/-- The default OAM entry (R41): the bytes 0x00, 0x00, 0x20, 0x00. -/
def OamEntry.atReset : OamEntry where
  y         := 0x00
  tileIndex := 0x00
  attr      := { verticalFlip := false, horizontalFlip := false, hide := true, palette := 0 }
  x         := 0x00

/-- The state after startup (R350) under a configuration, before any input. -/
def State.init (c : Config) : State where
  wram        := c.wramInit
  pc          := c.pc0
  sp          := c.s0
  oamAddr     := 0x00
  oamData     := 0x00
  intent      := .idle
  oam         := Vector.replicate 64 OamEntry.atReset
  fault       := none
  diag        := []
  cfg         := c
  inputs      := []
  response    := none
  extWrites   := []
  draws       := 0
  refusalMark := false

/-- The state after startup under the configuration of log 3. -/
def State.reset : State := State.init Config.atReset

end Sys2Proof.Machine
end

