-- ==== Sys2Proof/Machine/Flags.lean ====
section
/-! DEFINITION. The block has no status flags or condition codes (R48).  The one condition its arithmetic
computes is an address or `PC` passing 0xFFFF (R16), and what then happens (`ADDR_OVERFLOW`, R12). -/

namespace Sys2Proof.Machine

/-- `a + k` passes 0xFFFF. -/
def passesTop (a : Addr) (k : Nat) : Bool := decide (0xFFFF < a.toNat + k)

/-- `a` advanced by `k` (R121, R126, R160, R161): past 0xFFFF it faults or wraps, as `ADDR_OVERFLOW` says. -/
def advance (c : Config) (a : Addr) (k : Nat) : Except FaultRecord Addr :=
  if passesTop a k then
    match c.addrOverflow with
    | .fault => .error (.addrOverflow a)
    | .wrap  => .ok (a + BitVec.ofNat 16 k)
  else .ok (a + BitVec.ofNat 16 k)

end Sys2Proof.Machine
end

