-- ==== Sys2Proof/Machine/Operands.lean ====
section
/-! DEFINITION. The operand and address formats of 30_encoding.md R90 to R101 and the attribute byte of R95,
R231, R232. -/

namespace Sys2Proof.Machine

/-! ### CPU addresses (R61, R90) -/

/-- The regions of the CPU address space (R61). -/
inductive Region where
  | workRam
  | ppuWindow
  | unimplemented
  | programRom
deriving DecidableEq, Repr

/-- The region an address selects (R61). -/
def region (a : Addr) : Region :=
  if a.toNat < 0x2000 then .workRam
  else if a.toNat < 0x4000 then .ppuWindow
  else if a.toNat < 0x8000 then .unimplemented
  else .programRom

/-- The work-RAM index `a[10:0]` (R61). -/
def wramIndex (a : Addr) : Nat := (a.extractLsb' 0 11).toNat

/-- The register select `a[2:0]` (R240). -/
def registerSelect (a : Addr) : BitVec 3 := a.extractLsb' 0 3

/-- The ROM offset `a[14:0]` (R61). -/
def romOffset (a : Addr) : Nat := (a.extractLsb' 0 15).toNat

/-- The stack address `{0x01, S}` (R92). -/
def stackAddr (sp : Byte) : Addr := (0x01 : BitVec 8) ++ sp

/-! ### Words (R91) -/

/-- `w[7:0]`. -/
def lowByte (w : Word) : Byte := w.extractLsb' 0 8

/-- `w[15:8]`. -/
def highByte (w : Word) : Byte := w.extractLsb' 8 8

/-- `{hi, lo}`. -/
def joinWord (hi lo : Byte) : Word := hi ++ lo

/-! ### OAM addresses (R93, R94) -/

/-- The fields of an OAM entry by their numbers 0 to 3 (R93). -/
inductive OamField where
  | y
  | tileIndex
  | attr
  | x
deriving DecidableEq, Repr

/-- `i[7:2]`, the entry number (R93). -/
def oamEntryOf (i : Byte) : Fin 64 := ⟨i.toNat / 4, by have := i.isLt; omega⟩

/-- `i[1:0]`, the field number (R93). -/
def oamFieldOf (i : Byte) : OamField :=
  match i.toNat % 4 with
  | 0 => .y
  | 1 => .tileIndex
  | 2 => .attr
  | _ => .x

/-! ### The attribute byte (R95) -/

/-- A byte unpacked into an attribute; bits 4:2 are discarded (R231). -/
def attributeOfByte (b : Byte) : SpriteAttribute where
  verticalFlip   := b.getLsbD 7
  horizontalFlip := b.getLsbD 6
  hide           := b.getLsbD 5
  palette        := b.extractLsb' 0 2

/-- An attribute packed into a byte; bits 4:2 are zero (R232). -/
def attributeToByte (s : SpriteAttribute) : Byte :=
  ((BitVec.ofBool s.verticalFlip).setWidth 8 <<< 7) ||| ((BitVec.ofBool s.horizontalFlip).setWidth 8 <<< 6)
    ||| ((BitVec.ofBool s.hide).setWidth 8 <<< 5) ||| s.palette.setWidth 8

/-! ### Pixels (R97, R98) -/

/-- The pixel of column `x` from a row's two plane bytes: `{hi[7 - x], lo[7 - x]}` (R97, R171). -/
def pixelOfPlanes (hi lo : Byte) (x : Nat) : PixelIndex :=
  BitVec.ofBool (hi.getLsbD (7 - x)) ++ BitVec.ofBool (lo.getLsbD (7 - x))

/-- A grid of 64 cells from what column `x` and row `y` hold (R99). -/
def gridOf {α : Type} (f : Nat → Nat → α) : Vector α 64 :=
  Vector.ofFn fun i => f (i.val % 8) (i.val / 8)

/-- The cell of column `x` and row `y` of a grid, if both are below 8 (R172, R193). -/
def gridCell {α : Type} (g : Vector α 64) (x y : Nat) : Option α :=
  if x < 8 ∧ y < 8 then g[8 * y + x]? else none

/-! ### Colours (R99) -/

/-- Bits 23:16 of a colour, red. -/
def red (c : Colour) : Byte := c.extractLsb' 16 8

/-- Bits 15:8 of a colour, green. -/
def green (c : Colour) : Byte := c.extractLsb' 8 8

/-- Bits 7:0 of a colour, blue. -/
def blue (c : Colour) : Byte := c.extractLsb' 0 8

end Sys2Proof.Machine
end

