-- ==== Sys2Proof/Machine/Ops.lean ====
section
/-! DEFINITION. The shared operations: faults, refusals and responses (60_exceptions.md), the object attribute table
and its register synchronisation (45_oam.md), the PPU register window (47_ppu_registers.md), the CPU address
decoder (20_memory.md) and its word accesses (40_bus_access.md). -/

namespace Sys2Proof.Machine

/-! ### Faults, refusals, responses -/

/-- The number of a fault code (R301). -/
def faultCode : FaultRecord → Nat
  | .tileIndex _    => 1
  | .paletteIndex _ => 2
  | .addrOverflow _ => 3
  | .romRange _     => 4
  | .tileCoord _ _  => 5

/-- `raise Fault(code, info)` in a request served from the state `s` (R300): the record is set and the client is
told.  Every other field of the block is any value (U14); the configuration does not change (R357), and what the
model keeps of the ports stays. -/
def raiseFault (f : FaultRecord) (s : State) : State :=
  { Config.afterFault s.draws with
    fault       := some f
    response    := some (.fault f)
    cfg         := s.cfg
    inputs      := s.inputs
    extWrites   := s.extWrites
    draws       := s.draws + 1
    refusalMark := s.refusalMark }

/-- A request with a reserved `op` is refused (R303): the response is `Refused(op)`, the run is marked, and nothing
else changes. -/
def refuse (op : BitVec 5) (s : State) : State :=
  { s with response := some (.refused op), refusalMark := true }

/-- The request gives its result to the client (R15 `return`). -/
def respond (r : Response) (s : State) : State := { s with response := some r }

/-- How a request served from `s` ends: with its result, or with the fault its steps raised. -/
def serve {α : Type} (s : State) (toResponse : α → Response) (result : Except FaultRecord (α × State)) :
    Host.Outcome State Fault Refusal :=
  match result with
  | .ok (v, s') => .next (respond (toResponse v) s')
  | .error f    => .next (raiseFault f s)

/-- `emit Diag(kind, a)` (R310). -/
def emitDiag (kind : DiagKind) (a : Addr) (s : State) : State :=
  { s with diag := s.diag ++ [{ kind := kind, addr := a }] }

/-- `draw()` for `PPU_EXT_READ` (R15, R245): the next free byte. -/
def drawByte (s : State) : Byte × State :=
  (Config.ppuExtRead s.draws, { s with draws := s.draws + 1 })

/-! ### The object attribute table -/

/-- One field of an entry as a byte (R210). -/
def entryByte (e : OamEntry) : OamField → Byte
  | .y         => e.y
  | .tileIndex => e.tileIndex
  | .attr      => attributeToByte e.attr
  | .x         => e.x

/-- One field of an entry replaced from a byte (R211). -/
def entryWithByte (e : OamEntry) (v : Byte) : OamField → OamEntry
  | .y         => { e with y := v }
  | .tileIndex => { e with tileIndex := v }
  | .attr      => { e with attr := attributeOfByte v }
  | .x         => { e with x := v }

/-- `OAM.read(i)` (R210). -/
def oamGet (s : State) (i : Byte) : Byte := entryByte s.oam[oamEntryOf i] (oamFieldOf i)

/-- `OAM.write(i, v)` (R211). -/
def oamSet (i v : Byte) (s : State) : State :=
  let e := oamEntryOf i
  { s with oam := s.oam.set e (entryWithByte s.oam[e] v (oamFieldOf i)) }

/-- `oam_data <- OAM.read(oam_addr)` (R213, and the last step of R214). -/
def latchOamData (s : State) : State := { s with oamData := oamGet s s.oamAddr }

/-- Commit, advance, refresh (R214). -/
def commitOamData (s : State) : State :=
  let s1 := oamSet s.oamAddr s.oamData s
  latchOamData { s1 with oamAddr := s1.oamAddr + 1 }

/-- `oam_sync()` (R212 to R215). -/
def syncOam (s : State) : State :=
  let s1 :=
    match s.intent with
    | .writeOamAddr => latchOamData s
    | .writeOamData => commitOamData s
    | .idle         => s
    | .reserved     => s
  { s1 with intent := .idle }

/-! ### The PPU register window -/

/-- `PpuRegRead(a)` (R244): the OAM data register reads `oam_data`, every other register a draw. -/
def ppuRegRead (a : Addr) (s : State) : Byte × State :=
  if registerSelect a = s.cfg.oamDataSel then (s.oamData, s) else drawByte s

/-- A write handed to the external register block (R245). -/
def handOut (a : Addr) (v : Byte) (s : State) : State :=
  { s with extWrites := s.extWrites ++ [{ addr := a, value := v }] }

/-- `PpuRegWrite(a, v)` (R242, R243, R245). -/
def ppuRegWrite (a : Addr) (v : Byte) (s : State) : State :=
  if registerSelect a = s.cfg.oamAddrSel then syncOam { s with oamAddr := v, intent := .writeOamAddr }
  else if registerSelect a = s.cfg.oamDataSel then syncOam { s with oamData := v, intent := .writeOamData }
  else handOut a v s

/-! ### The CPU address decoder -/

/-- The ROM byte that a CPU address in 0x8000..0xFFFF reads (R62). -/
def romRead (c : Config) (a : Addr) : Except FaultRecord Byte :=
  let off := romOffset a
  if off < c.rom.size then .ok (c.rom.cells.read off)
  else
    match c.romRange with
    | .mirror => .ok (c.rom.cells.read (off % c.rom.size))
    | .fault  => .error (.romRange a)

/-- `MemRead(a, 1)` (R62). -/
def memRead (a : Addr) (s : State) : Except FaultRecord (Byte × State) :=
  match region a with
  | .workRam       => .ok (s.wram.read (wramIndex a), s)
  | .ppuWindow     => .ok (ppuRegRead a s)
  | .unimplemented => .ok (0x00, emitDiag .unmappedRead a s)
  | .programRom    => (romRead s.cfg a).map fun v => (v, s)

/-- `WRAM[k] <- v`. -/
def setWram (k : Nat) (v : Byte) (s : State) : State := { s with wram := s.wram.write k v }

/-- `MemWrite(a, 1, v)` (R63). -/
def memWrite (a : Addr) (v : Byte) (s : State) : State :=
  match region a with
  | .workRam       => setWram (wramIndex a) v s
  | .ppuWindow     => ppuRegWrite a v s
  | .unimplemented => emitDiag .unmappedWrite a s
  | .programRom    => emitDiag .romWrite a s

/-! ### Word accesses -/

/-- The word at `a`, low byte first (R121). -/
def readWord (a : Addr) (s : State) : Except FaultRecord (Word × State) := do
  let (lo, s1) ← memRead a s
  let a1 ← advance s.cfg a 1
  let (hi, s2) ← memRead a1 s1
  return (joinWord hi lo, s2)

/-- A word written at `a`, low byte first, as `SET_WORD_MODE` says (R126). -/
def writeWord (a : Addr) (w : Word) (s : State) : Except FaultRecord (Unit × State) :=
  let s1 := memWrite a (lowByte w) s
  match s.cfg.setWordMode with
  | .sameAddress => .ok ((), memWrite a (highByte w) s1)
  | .split       => (advance s.cfg a 1).map fun a1 => ((), memWrite a1 (highByte w) s1)

/-! ### The stack (41_stack.md) -/

/-- `push_byte(v)` as a step of a request (R140). -/
def pushStack (v : Byte) (s : State) : State :=
  let s1 := memWrite (stackAddr s.sp) v s
  { s1 with sp := s1.sp - 1 }

/-- `pop_byte()` as a step of a request (R142). -/
def popStack (s : State) : Except FaultRecord (Byte × State) :=
  memRead (stackAddr (s.sp + 1)) { s with sp := s.sp + 1 }

end Sys2Proof.Machine
end

