-- ==== Sys2Proof/Machine/Bus.lean ====
section
/-! DEFINITION. Bus byte and word access (40_bus_access.md). -/

namespace Sys2Proof.Machine

/-- `get_byte(a)` (R120). -/
def execGetByte (a : Addr) (s : State) : Host.Outcome State Fault Refusal :=
  serve s .byte (memRead a s)

/-- `get_word(a)` (R121). -/
def execGetWord (a : Addr) (s : State) : Host.Outcome State Fault Refusal :=
  serve s .word (readWord a s)

/-- `set_byte(a, v)` (R123 to R125). -/
def execSetByte (a : Addr) (v : Byte) (s : State) : Host.Outcome State Fault Refusal :=
  .next (respond .done (memWrite a v s))

/-- `set_word(a, w)` (R126, R127). -/
def execSetWord (a : Addr) (w : Word) (s : State) : Host.Outcome State Fault Refusal :=
  serve s (fun _ => .done) (writeWord a w s)

end Sys2Proof.Machine
end

