-- ==== Sys2Proof/Machine/Codec.lean ====
section
/-! DEFINITION. The SpriteAttribute codec (46_attribute_codec.md). -/

namespace Sys2Proof.Machine

/-- `attr_decode(b)` (R231). -/
def execAttrDecode (b : Byte) (s : State) : Host.Outcome State Fault Refusal :=
  .next (respond (.attr (attributeOfByte b)) s)

/-- `attr_encode(s)` (R232). -/
def execAttrEncode (attr : SpriteAttribute) (s : State) : Host.Outcome State Fault Refusal :=
  .next (respond (.byte (attributeToByte attr)) s)

end Sys2Proof.Machine
end

