-- ==== Sys2Proof/Machine/TileDecoder.lean ====
section
/-! DEFINITION. The tile bit-plane decoder (43_tile_decoder.md). -/

namespace Sys2Proof.Machine

/-- The tile of the 16-byte record at `16 n` of tile memory, if the record is wholly inside it (R170, R171). -/
def decodeTile (mem : ByteSeq) (n : Nat) : Except FaultRecord Tile :=
  let base := 16 * n
  if mem.size < base + 16 then .error (.tileIndex n)
  else .ok (gridOf fun x y => pixelOfPlanes (mem.cells.read (base + y + 8)) (mem.cells.read (base + y)) x)

/-- The cell of a grid, with the coordinate check of R172 and R193. -/
def cellAt {α : Type} (g : Vector α 64) (x y : Nat) : Except FaultRecord α :=
  match gridCell g x y with
  | some c => .ok c
  | none   => .error (.tileCoord x y)

/-- `tile_decode(n)` (R170). -/
def execTileDecode (n : Nat) (s : State) : Host.Outcome State Fault Refusal :=
  serve s .tile ((decodeTile s.cfg.tileMem n).map fun t => (t, s))

/-- `tile_get(T, x, y)` (R172). -/
def execTileGet (t : Tile) (x y : Nat) (s : State) : Host.Outcome State Fault Refusal :=
  serve s .pixel ((cellAt t x y).map fun p => (p, s))

end Sys2Proof.Machine
end

