-- ==== Sys2Proof/Machine/Colorizer.lean ====
section
/-! DEFINITION. The palette colorizer (44_colorizer.md). -/

namespace Sys2Proof.Machine

/-- `MasterColor(i)` (R190). -/
def masterColor (palette : Vector Colour 64) (i : Byte) : Except FaultRecord Colour :=
  match palette[i.toNat]? with
  | some c => .ok c
  | none   => .error (.paletteIndex i)

/-- The four colours of a palette selection, entry 0 first: every entry is checked before a colour is produced
(R191, R192), and the lowest-numbered bad one is reported (R330). -/
def resolvePalette (palette : Vector Colour 64) (pal : PaletteSelection) : Except FaultRecord (Vector Colour 4) := do
  let c0 ← masterColor palette pal[0]
  let c1 ← masterColor palette pal[1]
  let c2 ← masterColor palette pal[2]
  let c3 ← masterColor palette pal[3]
  return #v[c0, c1, c2, c3]

/-- The colours of a tile's pixels (R191): pixel index 0 is coloured like any other (R194). -/
def colorTile (t : Tile) (colours : Vector Colour 4) : ColoredTile :=
  Vector.ofFn fun j => colours[t[j].toFin]

/-- `colorize(T, pal)` (R191, R192). -/
def execColorize (t : Tile) (pal : PaletteSelection) (s : State) : Host.Outcome State Fault Refusal :=
  serve s .coloredTile ((resolvePalette s.cfg.masterPalette pal).map fun colours => (colorTile t colours, s))

/-- `colored_get(C, x, y)` (R193). -/
def execColoredGet (c : ColoredTile) (x y : Nat) (s : State) : Host.Outcome State Fault Refusal :=
  serve s .colour ((cellAt c x y).map fun k => (k, s))

end Sys2Proof.Machine
end

