-- ==== Sys2Proof/Machine/Fetch.lean ====
section
/-! DEFINITION. Instruction and operand fetch (42_fetch.md). -/

namespace Sys2Proof.Machine

/-- The read at `PC` and the advance by one (R160). -/
def fetchByte (s : State) : Except FaultRecord (Byte × State) := do
  let (v, s1) ← memRead s.pc s
  let pc1 ← advance s.cfg s.pc 1
  return (v, { s1 with pc := pc1 })

/-- The word read at `PC` and the advance by two (R161). -/
def fetchWord (s : State) : Except FaultRecord (Word × State) := do
  let (v, s1) ← readWord s.pc s
  let pc1 ← advance s.cfg s.pc 2
  return (v, { s1 with pc := pc1 })

/-- `increment_byte()` (R160). -/
def execIncrementByte (s : State) : Host.Outcome State Fault Refusal :=
  serve s .byte (fetchByte s)

/-- `increment_word()` (R161). -/
def execIncrementWord (s : State) : Host.Outcome State Fault Refusal :=
  serve s .word (fetchWord s)

end Sys2Proof.Machine
end

