-- ==== Sys2Proof/Machine/Oam.lean ====
section
/-! DEFINITION. The object attribute table's own operations (45_oam.md). -/

namespace Sys2Proof.Machine

/-- `oam_read(i)` (R210). -/
def execOamRead (i : Byte) (s : State) : Host.Outcome State Fault Refusal :=
  .next (respond (.byte (oamGet s i)) s)

/-- `oam_write(i, v)` (R211): neither latch is touched. -/
def execOamWrite (i v : Byte) (s : State) : Host.Outcome State Fault Refusal :=
  .next (respond .done (oamSet i v s))

/-- `oam_sync()` (R212). -/
def execOamSync (s : State) : Host.Outcome State Fault Refusal :=
  .next (respond .done (syncOam s))

end Sys2Proof.Machine
end

