-- ==== Sys2Proof/Machine/Stack.lean ====
section
/-! DEFINITION. The stack primitives (41_stack.md). -/

namespace Sys2Proof.Machine

/-- `push_byte(v)` (R140). -/
def execPushByte (v : Byte) (s : State) : Host.Outcome State Fault Refusal :=
  .next (respond .done (pushStack v s))

/-- `push_word(w)`, high byte first (R141). -/
def execPushWord (w : Word) (s : State) : Host.Outcome State Fault Refusal :=
  .next (respond .done (pushStack (lowByte w) (pushStack (highByte w) s)))

/-- `pop_byte()` (R142). -/
def execPopByte (s : State) : Host.Outcome State Fault Refusal :=
  serve s .byte (popStack s)

/-- The two pops of `pop_word()`, low byte first (R143). -/
def popWordStack (s : State) : Except FaultRecord (Word × State) := do
  let (lo, s1) ← popStack s
  let (hi, s2) ← popStack s1
  return (joinWord hi lo, s2)

/-- `pop_word()` (R143). -/
def execPopWord (s : State) : Host.Outcome State Fault Refusal :=
  serve s .word (popWordStack s)

end Sys2Proof.Machine
end

