-- ==== Sys2Proof/Machine/Dispatch.lean ====
section
/-! DEFINITION. The meaning of each operation of 30_encoding.md R111, one arm each. -/

namespace Sys2Proof.Machine

def exec (i : Instr) (s : State) : Host.Outcome State Fault Refusal :=
  match i with
  | .getByte a => Sys2Proof.Machine.execGetByte a s
  | .getWord a => Sys2Proof.Machine.execGetWord a s
  | .setByte a v => Sys2Proof.Machine.execSetByte a v s
  | .setWord a w => Sys2Proof.Machine.execSetWord a w s
  | .pushByte v => Sys2Proof.Machine.execPushByte v s
  | .pushWord w => Sys2Proof.Machine.execPushWord w s
  | .popByte => Sys2Proof.Machine.execPopByte s
  | .popWord => Sys2Proof.Machine.execPopWord s
  | .incrementByte => Sys2Proof.Machine.execIncrementByte s
  | .incrementWord => Sys2Proof.Machine.execIncrementWord s
  | .oamRead k => Sys2Proof.Machine.execOamRead k s
  | .oamWrite k v => Sys2Proof.Machine.execOamWrite k v s
  | .oamSync => Sys2Proof.Machine.execOamSync s
  | .tileDecode n => Sys2Proof.Machine.execTileDecode n s
  | .tileGet t x y => Sys2Proof.Machine.execTileGet t x y s
  | .colorize t pal => Sys2Proof.Machine.execColorize t pal s
  | .coloredGet c x y => Sys2Proof.Machine.execColoredGet c x y s
  | .attrDecode b => Sys2Proof.Machine.execAttrDecode b s
  | .attrEncode attr => Sys2Proof.Machine.execAttrEncode attr s

end Sys2Proof.Machine
end

