-- ==== Sys2Proof/WellFormed.lean ====
section
/-! DEFINITION. Which operations a request can spell: coordinates fit their 3-bit fields (R110, R113). -/

namespace Sys2Proof

/-- A tile coordinate is encodable: the `x` and `y` fields have three bits (R110). -/
def coordinateEncodable (k : Nat) : Bool := decide (k < 8)

/-- The operations a request can spell.  Every other operand fills its whole type (R101): a tile number is any
natural, and a palette entry of 64 or more is encodable and faults when it is run (R113). -/
def Instr.wellFormed : Instr → Bool
  | .getByte _      => true
  | .getWord _      => true
  | .setByte _ _    => true
  | .setWord _ _    => true
  | .pushByte _     => true
  | .pushWord _     => true
  | .popByte        => true
  | .popWord        => true
  | .incrementByte  => true
  | .incrementWord  => true
  | .oamRead _      => true
  | .oamWrite _ _   => true
  | .oamSync        => true
  | .tileDecode _   => true
  | .tileGet _ x y  => coordinateEncodable x && coordinateEncodable y
  | .colorize _ _   => true
  | .coloredGet _ x y => coordinateEncodable x && coordinateEncodable y
  | .attrDecode _   => true
  | .attrEncode _   => true

/-- The operation is one a request can spell. -/
abbrev Instr.WellFormed (i : Instr) : Prop := i.wellFormed = true

end Sys2Proof
end

