-- ==== Sys2Proof/Decode.lean ====
section
/-! DEFINITION. The port formats of 30_encoding.md R96 to R100, the decoder of requests (R111, R112, R117), and
after it the encoder. -/

namespace Sys2Proof

/-! ### Port values: attributes, intents, tiles, palettes (R96, R98, R99, R110) -/

/-- `attr5 = {vertical_flip, horizontal_flip, hide, palette[1:0]}` read from the port (R96). -/
def attributeOfPort (p : BitVec 5) : SpriteAttribute where
  verticalFlip   := p.getLsbD 4
  horizontalFlip := p.getLsbD 3
  hide           := p.getLsbD 2
  palette        := p.extractLsb' 0 2

/-- An attribute put on the port as `attr5` (R96). -/
def attributeToPort (s : SpriteAttribute) : BitVec 5 :=
  BitVec.ofBool s.verticalFlip ++ BitVec.ofBool s.horizontalFlip ++ BitVec.ofBool s.hide ++ s.palette

/-- The intent of a 2-bit port code (R98). -/
def intentOfCode (c : BitVec 2) : Intent :=
  match c.toNat with
  | 0 => .idle
  | 1 => .writeOamAddr
  | 2 => .writeOamData
  | _ => .reserved

/-- The 2-bit port code of an intent (R98). -/
def intentCode : Intent → BitVec 2
  | .idle         => 0
  | .writeOamAddr => 1
  | .writeOamData => 2
  | .reserved     => 3

/-- Cells of `w` bits side by side in one number, the first in the low bits. -/
def packCells (w : Nat) : List (BitVec w) → Nat
  | [] => 0
  | c :: cs => c.toNat + 2 ^ w * packCells w cs

/-- A tile read from the 128-bit port: pixel `(x, y)` is bits `2(8y + x) + 1 : 2(8y + x)` (R99). -/
def tileOfPort (b : BitVec 128) : Tile :=
  Vector.ofFn fun i => b.extractLsb' (2 * i.val) 2

/-- A tile put on the 128-bit port (R99). -/
def tileToPort (t : Tile) : BitVec 128 := BitVec.ofNat 128 (packCells 2 t.toList)

/-- A colored tile read from the 1536-bit port: the colour of `(x, y)` is bits
`24(8y + x) + 23 : 24(8y + x)` (R99). -/
def coloredTileOfPort (b : BitVec 1536) : ColoredTile :=
  Vector.ofFn fun i => b.extractLsb' (24 * i.val) 24

/-- A colored tile put on the 1536-bit port (R99). -/
def coloredTileToPort (c : ColoredTile) : BitVec 1536 := BitVec.ofNat 1536 (packCells 24 c.toList)

/-- `pal[i]` is bits `8i + 7 : 8i` of the 32-bit port (R110). -/
def paletteOfPort (b : BitVec 32) : PaletteSelection :=
  Vector.ofFn fun i => b.extractLsb' (8 * i.val) 8

/-- A palette selection put on the 32-bit port (R110). -/
def paletteToPort (p : PaletteSelection) : BitVec 32 := BitVec.ofNat 32 (packCells 8 p.toList)

/-! ### The request as one number

The spec fixes the bits of `op` (4:0) and the widths of the other fields, not their places in one word.
DESIGN CHOICE (log 5): R110's fields follow one another upward from `op`, with the unbounded `n` last. -/

/-- The request that the bits of a number spell: bit 0 is the least significant bit of `op`. -/
def Request.ofBits (w : Nat) : Request where
  op    := BitVec.ofNat 5 w
  a     := BitVec.ofNat 16 (w >>> 5)
  d     := BitVec.ofNat 16 (w >>> 21)
  x     := BitVec.ofNat 3 (w >>> 37)
  y     := BitVec.ofNat 3 (w >>> 40)
  tile  := BitVec.ofNat 128 (w >>> 43)
  pal   := BitVec.ofNat 32 (w >>> 171)
  ctile := BitVec.ofNat 1536 (w >>> 203)
  attr5 := BitVec.ofNat 5 (w >>> 1739)
  n     := w >>> 1744

/-- A field with the bits of `above` over it. -/
def putField {w : Nat} (v : BitVec w) (above : Nat) : Nat := v.toNat + 2 ^ w * above

/-- The number whose bits spell a request. -/
def Request.toBits (r : Request) : Nat :=
  putField r.op <| putField r.a <| putField r.d <| putField r.x <| putField r.y <| putField r.tile <|
    putField r.pal <| putField r.ctile <| putField r.attr5 <| r.n

/-! ### The decoder (R111, R112, R117) -/

/-- Why a request spells no operation. -/
inductive DecodeError where
  /-- The `op` code is one of R112's: 0x0A to 0x0F, 0x13 to 0x17, 0x1E, 0x1F. -/
  | reservedOp (op : BitVec 5)
deriving DecidableEq, Repr

/-- The operation a request names, from the `op` code of R111's table and the fields its row reads; every other
code is reserved (R112). -/
def decode (r : Request) : Except DecodeError Instr :=
  match r.op.toNat with
  | 0x00 => .ok (.getByte r.a)
  | 0x01 => .ok (.getWord r.a)
  | 0x02 => .ok (.setByte r.a (r.d.extractLsb' 0 8))
  | 0x03 => .ok (.setWord r.a r.d)
  | 0x04 => .ok (.pushByte (r.d.extractLsb' 0 8))
  | 0x05 => .ok (.pushWord r.d)
  | 0x06 => .ok .popByte
  | 0x07 => .ok .popWord
  | 0x08 => .ok .incrementByte
  | 0x09 => .ok .incrementWord
  | 0x10 => .ok (.oamRead (r.a.extractLsb' 0 8))
  | 0x11 => .ok (.oamWrite (r.a.extractLsb' 0 8) (r.d.extractLsb' 0 8))
  | 0x12 => .ok .oamSync
  | 0x18 => .ok (.tileDecode r.n)
  | 0x19 => .ok (.tileGet (tileOfPort r.tile) r.x.toNat r.y.toNat)
  | 0x1A => .ok (.colorize (tileOfPort r.tile) (paletteOfPort r.pal))
  | 0x1B => .ok (.coloredGet (coloredTileOfPort r.ctile) r.x.toNat r.y.toNat)
  | 0x1C => .ok (.attrDecode (r.d.extractLsb' 0 8))
  | 0x1D => .ok (.attrEncode (attributeOfPort r.attr5))
  | _    => .error (.reservedOp r.op)

/-- The operation that the bits of a number spell. -/
def decodeBits (w : Nat) : Except DecodeError Instr := decode (Request.ofBits w)

/-- The operation the decoder reads from the low `nbits` bits of `w`, every bit above them zero. -/
def decodeTableWord (nbits w : Nat) : Option Instr :=
  match decodeBits (w % 2 ^ nbits) with
  | .ok i    => some i
  | .error _ => none

/-! ### The encoder, from the same table (R111) -/

/-- A request with the `op` code given and every other field zero (95_test_vectors.md: fields an operation does
not read are shown as 0). -/
def requestOf (op : BitVec 5) : Request where
  op    := op
  a     := 0
  d     := 0
  n     := 0
  x     := 0
  y     := 0
  tile  := 0
  pal   := 0
  ctile := 0
  attr5 := 0

/-- The request that spells an operation. -/
def encode : Instr → Request
  | .getByte a        => { requestOf 0x00 with a := a }
  | .getWord a        => { requestOf 0x01 with a := a }
  | .setByte a v      => { requestOf 0x02 with a := a, d := v.setWidth 16 }
  | .setWord a w      => { requestOf 0x03 with a := a, d := w }
  | .pushByte v       => { requestOf 0x04 with d := v.setWidth 16 }
  | .pushWord w       => { requestOf 0x05 with d := w }
  | .popByte          => requestOf 0x06
  | .popWord          => requestOf 0x07
  | .incrementByte    => requestOf 0x08
  | .incrementWord    => requestOf 0x09
  | .oamRead i        => { requestOf 0x10 with a := i.setWidth 16 }
  | .oamWrite i v     => { requestOf 0x11 with a := i.setWidth 16, d := v.setWidth 16 }
  | .oamSync          => requestOf 0x12
  | .tileDecode n     => { requestOf 0x18 with n := n }
  | .tileGet t x y    => { requestOf 0x19 with tile := tileToPort t, x := BitVec.ofNat 3 x, y := BitVec.ofNat 3 y }
  | .colorize t pal   => { requestOf 0x1A with tile := tileToPort t, pal := paletteToPort pal }
  | .coloredGet c x y => { requestOf 0x1B with ctile := coloredTileToPort c, x := BitVec.ofNat 3 x, y := BitVec.ofNat 3 y }
  | .attrDecode b     => { requestOf 0x1C with d := b.setWidth 16 }
  | .attrEncode s     => { requestOf 0x1D with attr5 := attributeToPort s }

/-- The number whose bits spell an operation. -/
def encodeBits (i : Instr) : Nat := (encode i).toBits

/-- An operation's name in R111's table and in spec/opcode_table.json. -/
def mnemonic : Instr → String
  | .getByte _        => "get_byte"
  | .getWord _        => "get_word"
  | .setByte _ _      => "set_byte"
  | .setWord _ _      => "set_word"
  | .pushByte _       => "push_byte"
  | .pushWord _       => "push_word"
  | .popByte          => "pop_byte"
  | .popWord          => "pop_word"
  | .incrementByte    => "increment_byte"
  | .incrementWord    => "increment_word"
  | .oamRead _        => "oam_read"
  | .oamWrite _ _     => "oam_write"
  | .oamSync          => "oam_sync"
  | .tileDecode _     => "tile_decode"
  | .tileGet _ _ _    => "tile_get"
  | .colorize _ _     => "colorize"
  | .coloredGet _ _ _ => "colored_get"
  | .attrDecode _     => "attr_decode"
  | .attrEncode _     => "attr_encode"

end Sys2Proof
end

