-- ==== Sys2Proof/Machine/Inputs.lean ====
section
/-! DEFINITION. What `step` needs of the inputs: taking the next one, and the external CPU's own register writes. -/

namespace Sys2Proof.Machine

/-- The state in which the first input has been taken and `rest` is still to come. -/
def takeInput (rest : List Input) (s : State) : State := { s with inputs := rest }

/-- The external CPU writes `PC` (R34, R162: any 16-bit value is legal). -/
def externalPcWrite (v : Addr) (s : State) : State := { s with pc := v }

/-- The external CPU writes `S` (R35: any 8-bit value is legal). -/
def externalSWrite (v : Byte) (s : State) : State := { s with sp := v }

/-- The request of the low `nbits` bits of `w`, every bit above them zero, as the next input. -/
def tableRequest (nbits w : Nat) : Input := .request (Request.ofBits (w % 2 ^ nbits))

end Sys2Proof.Machine
end

