-- ==== Sys2Proof/Machine/Step.lean ====
section
/-! DEFINITION. One step: the block serves one input (R7). -/

namespace Sys2Proof.Machine

/-- One step.  A block stopped by a fault serves nothing (R300); with no input it is idle (R339); a request is
decoded and run, or refused (R117, R303); a register write of the external CPU happens (R34). -/
def step (s : State) : Host.Outcome State Fault Refusal :=
  match s.fault with
  | some f => .fault (.stopped f)
  | none =>
    match s.inputs with
    | [] => .next s
    | .cpuWritesPc v :: rest => .next (externalPcWrite v (takeInput rest s))
    | .cpuWritesS v :: rest => .next (externalSWrite v (takeInput rest s))
    | .request r :: rest =>
      match decode r with
      | .ok i => exec i (takeInput rest s)
      | .error (.reservedOp op) => .next (refuse op (takeInput rest s))

/-- The state `s` in which a client has just issued the request of a table word, ahead of the inputs still to
come (log 6). -/
def State.withFetchWord (s : State) (nbits w : Nat) : State :=
  { s with inputs := tableRequest nbits w :: s.inputs }

end Sys2Proof.Machine
end

