-- ==== Sys2Proof/Safety.lean ====
section
/-! DEFINITION. What counts as a good state, in the terms the statements use. -/

namespace Sys2Proof.Machine

/-- A diagnostic names an address of the region its kind belongs to (R310). -/
def DiagEvent.legal (e : DiagEvent) : Bool :=
  match e.kind with
  | .unmappedRead  => decide (region e.addr = .unimplemented)
  | .unmappedWrite => decide (region e.addr = .unimplemented)
  | .romWrite      => decide (region e.addr = .programRom)

/-- The run may count as successful so far: no fault (R300: "A faulted block is never a successful end state") and
no refused request (R303). -/
abbrev State.Successful (s : State) : Prop := s.fault = none ∧ s.refusalMark = false

/-- The block's invariant.  The parameters keep the ranges of R12; and, until a fault leaves the block's state
unspecified (R300), work RAM is 2048 cells in canonical form (R31), `intent` is `Idle` between any two requests
(R49), and every diagnostic is one of R310's. -/
abbrev State.Inv (s : State) : Prop :=
  s.cfg.wf = true ∧
    (s.fault = none →
      s.wram.wf = true ∧ s.wram.within 0x800 = true ∧ s.intent = .idle ∧
        s.diag.all DiagEvent.legal = true)

/-! ### What a CPU read sees, in the numbers of R61 and R62 -/

/-- A CPU read of `a` raises no fault: it is below the ROM window, or its ROM offset is in range, or ROM mirrors
(R62). -/
abbrev Readable (c : Config) (a : Addr) : Prop :=
  a.toNat < 0x8000 ∨ a.toNat - 0x8000 < c.rom.size ∨ c.romRange = .mirror

/-- Advancing `a` by `k` raises no fault (R12 `ADDR_OVERFLOW`). -/
abbrev Advances (c : Config) (a : Addr) (k : Nat) : Prop :=
  a.toNat + k ≤ 0xFFFF ∨ c.addrOverflow = .wrap

/-- The byte a CPU read of `a` returns, the next free value being number `draw` (R62, R244). -/
def seenByte (s : State) (a : Addr) (draw : Nat) : Byte :=
  if a.toNat < 0x2000 then s.wram.read (a.toNat % 0x800)
  else if a.toNat < 0x4000 then
    if a.toNat % 8 = s.cfg.oamDataSel.toNat then s.oamData else Config.ppuExtRead draw
  else if a.toNat < 0x8000 then 0x00
  else s.cfg.rom.cells.read ((a.toNat - 0x8000) % s.cfg.rom.size)

/-- How many free values a CPU read of `a` draws (R244, R245). -/
def drawsAt (c : Config) (a : Addr) : Nat :=
  if 0x2000 ≤ a.toNat ∧ a.toNat < 0x4000 ∧ a.toNat % 8 ≠ c.oamDataSel.toNat then 1 else 0

/-- The diagnostics a CPU read of `a` emits (R62, R310). -/
def readDiag (a : Addr) : List DiagEvent :=
  if 0x4000 ≤ a.toNat ∧ a.toNat < 0x8000 then [{ kind := .unmappedRead, addr := a }] else []

/-- The state after a CPU read of `a`: the diagnostic and the draw, and nothing else (R62, R70). -/
def afterRead (a : Addr) (s : State) : State :=
  { s with diag := s.diag ++ readDiag a, draws := s.draws + drawsAt s.cfg a }

end Sys2Proof.Machine
end

