-- ==== Sys2Proof/Certificates/Slice0/Obligations.lean ====
section
/-! DEFINITION. The statements about the model, for the provers: each formalises rules of spec/ or a property of the
whole machine.  Its docstring names them. -/

open Sys2Proof Sys2Proof.Machine

/-! ### Reset -/

/-- R350, R41: what startup leaves in each field, for every configuration: the fields the spec leaves open hold the
configuration's parameters, and OAM reads 0x20 at every attribute byte and 0x00 elsewhere. -/
def Obligations.ResetLeavesTheStatedState : Prop :=
  ∀ c : Config,
    (State.init c).wram = c.wramInit ∧ (State.init c).pc = c.pc0 ∧ (State.init c).sp = c.s0 ∧
    (State.init c).cfg = c ∧ (State.init c).oamAddr = 0x00 ∧ (State.init c).oamData = 0x00 ∧
    (State.init c).intent = .idle ∧ (State.init c).fault = none ∧ (State.init c).diag = [] ∧
    (∀ e : Fin 64, (State.init c).oam[e] =
      { y := 0x00, tileIndex := 0x00, x := 0x00,
        attr := { verticalFlip := false, horizontalFlip := false, hide := true, palette := 0 } }) ∧
    (∀ i : Byte, oamGet (State.init c) i = if i.toNat % 4 = 2 then 0x20 else 0x00)

/-- R352: the latch invariant holds after startup, under every configuration. -/
def Obligations.LatchAgreesAtReset : Prop :=
  ∀ c : Config, (State.init c).oamData = oamGet (State.init c) (State.init c).oamAddr ∧ (State.init c).oamData = 0x00

/-- The invariant holds after startup under every configuration whose parameters keep R12's ranges, and at
`State.reset`, whose own configuration is the model's choice (log 3). -/
def Obligations.ResetMeetsTheBlockInvariant : Prop :=
  State.reset.Inv ∧ ∀ c : Config, c.wf = true → (State.init c).Inv

/-- R350, R12: the machine's own reset state is the state after startup (whose fields `ResetLeavesTheStatedState` gives)
under one configuration, in which the parameters that have a default in R12 hold it.  Its other parameters are the
model's choice (log 3). -/
def Obligations.MachineResetIsTheStateAfterStartup : Prop :=
  State.reset = State.init Config.atReset ∧ Sys2Proof.core.reset = State.reset ∧
  State.reset.cfg.addrOverflow = .fault ∧ State.reset.cfg.romRange = .fault ∧
  State.reset.cfg.oamAddrSel = 3 ∧ State.reset.cfg.oamDataSel = 4

/-! ### The whole machine -/

/-- Every step keeps the block's invariant (Safety.lean): work RAM stays 2048 cells in canonical form (R31), `intent`
is `Idle` between any two requests (R49), every diagnostic is one of R310's, and the parameters stay in range. -/
def Obligations.EveryStepKeepsTheBlockInvariant : Prop :=
  ∀ s t : State, s.Inv → step s = .next t → t.Inv

/-- R357: the configuration does not change during the session. -/
def Obligations.ConfigurationNeverChanges : Prop :=
  ∀ s t : State, step s = .next t → t.cfg = s.cfg

/-- R46, R300: there is no fault at reset; raising a fault sets the record and answers the client with it; an operation
leaves the record set exactly when it answers the client with that fault; a block whose record is set serves no request,
so no step clears it.  That the faulting operation answers a next state, and the step after it stops, is log 1. -/
def Obligations.FaultIsRecordedAndStopsTheBlock : Prop :=
  (∀ c : Config, (State.init c).fault = none) ∧
  (∀ (s : State) (f : FaultRecord),
    (raiseFault f s).fault = some f ∧ (raiseFault f s).response = some (.fault f)) ∧
  (∀ (i : Instr) (s t : State) (f : FaultRecord), s.fault = none → exec i s = .next t →
    (t.fault = some f ↔ t.response = some (.fault f)) ∧ (t.fault = some f → step t = .fault (.stopped f))) ∧
  (∀ (s : State) (f : FaultRecord), s.fault = some f → ∀ t : State, step s ≠ .next t)

/-- R117 and R300: a step is never without a meaning, and it stops exactly when a fault has stopped the block.  That a
request with a reserved code answers a next state is the model's choice (log 9), and so is that the step after a fault
is the one that stops (log 1). -/
def Obligations.StepStopsOnlyOnARecordedFault : Prop :=
  (∀ (s : State) (r : Refusal), step s ≠ .refused r) ∧
  (∀ (s : State) (f : Fault), step s = .fault f ↔ ∃ rec, s.fault = some rec ∧ f = .stopped rec)

/-- R301: every fault an operation raises is one of the five of the table, with its code, from one of the operations
the table names, for its cause, and with the information it says is recorded.
That a fault is a next state is the model's choice (log 1). -/
def Obligations.OnlyTheTablesOperationsFault : Prop :=
  ∀ (i : Instr) (s t : State) (f : FaultRecord), s.fault = none → exec i s = .next t → t.fault = some f →
    match f with
    | .tileIndex n => faultCode f = 1 ∧ i = .tileDecode n ∧ s.cfg.tileMem.size < 16 * n + 16
    | .paletteIndex v => faultCode f = 2 ∧ 64 ≤ v.toNat ∧ ∃ T pal, i = .colorize T pal ∧ v ∈ pal.toList
    | .addrOverflow a => faultCode f = 3 ∧ s.cfg.addrOverflow = .fault ∧
        ((a = 0xFFFF ∧ i = .getWord a) ∨
         (a = 0xFFFF ∧ s.cfg.setWordMode = .split ∧ ∃ w, i = .setWord a w) ∨
         (a = 0xFFFF ∧ a = s.pc ∧ i = .incrementByte) ∨
         ((a = 0xFFFE ∨ a = 0xFFFF) ∧ a = s.pc ∧ i = .incrementWord))
    | .romRange a => faultCode f = 4 ∧ s.cfg.romRange = .fault ∧ 0x8000 ≤ a.toNat ∧
        s.cfg.rom.size ≤ a.toNat - 0x8000 ∧
        (i = .getByte a ∨ (∃ b, i = .getWord b ∧ (a = b ∨ a = b + 1)) ∨
         (i = .incrementByte ∧ a = s.pc) ∨ (i = .incrementWord ∧ (a = s.pc ∨ a = s.pc + 1)))
    | .tileCoord x y => faultCode f = 5 ∧ (8 ≤ x ∨ 8 ≤ y) ∧
        ((∃ T, i = .tileGet T x y) ∨ (∃ C, i = .coloredGet C x y))

/-- R330: the fault a request raises is the first its steps reach.  That a fault is a next state, and what that state
leaves unspecified, is the model's choice (log 1); that coordinates are naturals is log 11. -/
def Obligations.FirstFaultReachedIsRaised : Prop :=
  ∀ s : State,
    (∀ a, ¬ Readable s.cfg a → exec (.getWord a) s = .next (raiseFault (.romRange a) s)) ∧
    (∀ a, Readable s.cfg a → ¬ Advances s.cfg a 1 →
      exec (.getWord a) s = .next (raiseFault (.addrOverflow a) s)) ∧
    (∀ a, Readable s.cfg a → Advances s.cfg a 1 → ¬ Readable s.cfg (a + 1) →
      exec (.getWord a) s = .next (raiseFault (.romRange (a + 1)) s)) ∧
    (∀ a w, s.cfg.setWordMode = .split → ¬ Advances s.cfg a 1 →
      exec (.setWord a w) s = .next (raiseFault (.addrOverflow a) s)) ∧
    (¬ Readable s.cfg s.pc → exec .incrementByte s = .next (raiseFault (.romRange s.pc) s)) ∧
    (Readable s.cfg s.pc → ¬ Advances s.cfg s.pc 1 →
      exec .incrementByte s = .next (raiseFault (.addrOverflow s.pc) s)) ∧
    (∀ f, exec (.getWord s.pc) s = .next (raiseFault f s) → exec .incrementWord s = .next (raiseFault f s)) ∧
    (Readable s.cfg s.pc → Readable s.cfg (s.pc + 1) → Advances s.cfg s.pc 1 → ¬ Advances s.cfg s.pc 2 →
      exec .incrementWord s = .next (raiseFault (.addrOverflow s.pc) s)) ∧
    (∀ (T : Tile) (pal : PaletteSelection) (k : Fin 4), 64 ≤ pal[k].toNat → (∀ j : Fin 4, j < k → pal[j].toNat < 64) →
      exec (.colorize T pal) s = .next (raiseFault (.paletteIndex pal[k]) s)) ∧
    (∀ (T : Tile) (x y : Nat), (8 ≤ x ∨ 8 ≤ y) →
      exec (.tileGet T x y) s = .next (raiseFault (.tileCoord x y) s)) ∧
    (∀ (C : ColoredTile) (x y : Nat), (8 ≤ x ∨ 8 ≤ y) →
      exec (.coloredGet C x y) s = .next (raiseFault (.tileCoord x y) s))

/-- R310: an operation that does not fault appends to the diagnostics, at most two events, each of a kind and an address
of the table, and only for an address that the operation itself reads in the unimplemented region, or writes there or in
the ROM window. -/
def Obligations.DiagnosticsAreOnlyAppended : Prop :=
  ∀ (i : Instr) (s t : State), s.fault = none → exec i s = .next t → t.fault = none →
    ∃ es : List DiagEvent, t.diag = s.diag ++ es ∧ es.length ≤ 2 ∧ ∀ e ∈ es,
      match e.kind with
      | .unmappedRead => (0x4000 ≤ e.addr.toNat ∧ e.addr.toNat < 0x8000) ∧
          (i = .getByte e.addr ∨ (∃ a, i = .getWord a ∧ (e.addr = a ∨ e.addr = a + 1)) ∨
           (i = .incrementByte ∧ e.addr = s.pc) ∨ (i = .incrementWord ∧ (e.addr = s.pc ∨ e.addr = s.pc + 1)))
      | .unmappedWrite => (0x4000 ≤ e.addr.toNat ∧ e.addr.toNat < 0x8000) ∧
          ((∃ v, i = .setByte e.addr v) ∨
           ∃ a w, i = .setWord a w ∧ (e.addr = a ∨ (s.cfg.setWordMode = .split ∧ e.addr = a + 1)))
      | .romWrite => 0x8000 ≤ e.addr.toNat ∧
          ((∃ v, i = .setByte e.addr v) ∨
           ∃ a w, i = .setWord a w ∧ (e.addr = a ∨ (s.cfg.setWordMode = .split ∧ e.addr = a + 1)))

/-- R47: no rule reads the diagnostics: two runs of an operation that differ only there differ only there.  That the two
runs draw the same bytes is log 4, and that two runs that fault have the same unspecified state is log 1. -/
def Obligations.DiagnosticsChangeNothing : Prop :=
  ∀ (i : Instr) (s : State) (d : List DiagEvent), ∃ t u : State,
    exec i s = .next t ∧ exec i { s with diag := d } = .next u ∧ { t with diag := [] } = { u with diag := [] }

/-- R162: the block changes `PC` only by the advances of R160 and R161; and the interpreter may write any value to it,
which changes nothing else.
That the interpreter's write is an input in a queue is the model's choice (log 10, log 6). -/
def Obligations.OnlyFetchAdvancesPc : Prop :=
  (∀ (i : Instr) (s t : State), s.fault = none → exec i s = .next t → t.fault = none →
    t.pc = match i with
      | .incrementByte => s.pc + 1
      | .incrementWord => s.pc + 2
      | _ => s.pc) ∧
  (∀ (s : State) (v : Addr) (rest : List Input), s.fault = none → s.inputs = .cpuWritesPc v :: rest →
    step s = .next { s with pc := v, inputs := rest })

/-- R35: only the stack operations move `S`, by one for each byte, modulo 256; and the external CPU may write any value to
it, which changes nothing else.
That the external CPU's write is an input in a queue is the model's choice (log 10, log 6). -/
def Obligations.OnlyStackOperationsMoveS : Prop :=
  (∀ (i : Instr) (s t : State), s.fault = none → exec i s = .next t → t.fault = none →
    t.sp = match i with
      | .pushByte _ => s.sp - 1
      | .pushWord _ => s.sp - 2
      | .popByte => s.sp + 1
      | .popWord => s.sp + 2
      | _ => s.sp) ∧
  (∀ (s : State) (v : Byte) (rest : List Input), s.fault = none → s.inputs = .cpuWritesS v :: rest →
    step s = .next { s with sp := v, inputs := rest })

/-- R31, R63, R79: the frame of work RAM over all operations: a cell that an operation changes is one that it stores to:
the cell of a byte or word write's address, or of the stack slots of a push. -/
def Obligations.WorkRamChangesOnlyWhereStored : Prop :=
  ∀ (i : Instr) (s t : State) (k : Nat), s.wram.wf = true → s.fault = none → exec i s = .next t → t.fault = none →
    t.wram.read k ≠ s.wram.read k →
    match i with
    | .setByte a _ => a.toNat < 0x2000 ∧ k = wramIndex a
    | .setWord a _ => (a.toNat < 0x2000 ∧ k = wramIndex a) ∨
        (s.cfg.setWordMode = .split ∧ (a + 1).toNat < 0x2000 ∧ k = wramIndex (a + 1))
    | .pushByte _ => k = wramIndex (stackAddr s.sp)
    | .pushWord _ => k = wramIndex (stackAddr s.sp) ∨ k = wramIndex (stackAddr (s.sp - 1))
    | _ => False

/-- R37 to R39, R219: OAM, the two latches and `intent` change only in `oam_write`, in `oam_sync` and in a byte or word
write that reaches the PPU window; and of these `oam_write` leaves both latches and `intent` alone. -/
def Obligations.OamChangesOnlyThroughItsRegisters : Prop :=
  ∀ (i : Instr) (s t : State), s.fault = none → exec i s = .next t → t.fault = none →
    (t.oamAddr = s.oamAddr ∧ t.oamData = s.oamData ∧ t.intent = s.intent ∧
      (t.oam = s.oam ∨ ∃ k v, i = .oamWrite k v)) ∨
    i = .oamSync ∨
    (∃ a v, i = .setByte a v ∧ 0x2000 ≤ a.toNat ∧ a.toNat < 0x4000) ∨
    (∃ a w, i = .setWord a w ∧ ((0x2000 ≤ a.toNat ∧ a.toNat < 0x4000) ∨
      (s.cfg.setWordMode = .split ∧ 0x2000 ≤ (a + 1).toNat ∧ (a + 1).toNat < 0x4000)))

/-! ### Requests -/

/-- Decoding an encoded operation gives it back, with every operand at every value the request record admits (R96, R99,
R110, R111).  The places of the fields above `op` in one number are the model's choice (log 5). -/
def Obligations.EncodedOperationsDecodeBack : Prop :=
  ∀ i : Instr, i.WellFormed → decode (encode i) = .ok i ∧ decodeBits (encodeBits i) = .ok i

/-- R111: the operation each code names, with the fields its row reads. -/
def Obligations.OperationCodesOfTheTable : Prop :=
  ∀ r : Request,
    (r.op = 0x00 → decode r = .ok (.getByte r.a)) ∧
    (r.op = 0x01 → decode r = .ok (.getWord r.a)) ∧
    (r.op = 0x02 → decode r = .ok (.setByte r.a (r.d.extractLsb' 0 8))) ∧
    (r.op = 0x03 → decode r = .ok (.setWord r.a r.d)) ∧
    (r.op = 0x04 → decode r = .ok (.pushByte (r.d.extractLsb' 0 8))) ∧
    (r.op = 0x05 → decode r = .ok (.pushWord r.d)) ∧
    (r.op = 0x06 → decode r = .ok .popByte) ∧
    (r.op = 0x07 → decode r = .ok .popWord) ∧
    (r.op = 0x08 → decode r = .ok .incrementByte) ∧
    (r.op = 0x09 → decode r = .ok .incrementWord) ∧
    (r.op = 0x10 → decode r = .ok (.oamRead (r.a.extractLsb' 0 8))) ∧
    (r.op = 0x11 → decode r = .ok (.oamWrite (r.a.extractLsb' 0 8) (r.d.extractLsb' 0 8))) ∧
    (r.op = 0x12 → decode r = .ok .oamSync) ∧
    (r.op = 0x18 → decode r = .ok (.tileDecode r.n)) ∧
    (r.op = 0x19 → decode r = .ok (.tileGet (tileOfPort r.tile) r.x.toNat r.y.toNat)) ∧
    (r.op = 0x1A → decode r = .ok (.colorize (tileOfPort r.tile) (paletteOfPort r.pal))) ∧
    (r.op = 0x1B → decode r = .ok (.coloredGet (coloredTileOfPort r.ctile) r.x.toNat r.y.toNat)) ∧
    (r.op = 0x1C → decode r = .ok (.attrDecode (r.d.extractLsb' 0 8))) ∧
    (r.op = 0x1D → decode r = .ok (.attrEncode (attributeOfPort r.attr5)))

/-- Words written out bit by bit from R111 and R110, one or more of each family: `op` in the low five bits, then the
operand bits where log 5 puts them, or the field of the record. -/
def Obligations.SampleWordsDecode : Prop :=
  decodeTableWord 8 0b00000 = some (.getByte 0x0000) ∧
  decodeTableWord 40 (0b00010 + 0x2003 * 2 ^ 5 + 0x05 * 2 ^ 21) = some (.setByte 0x2003 0x05) ∧
  decodeTableWord 40 (0b00101 + 0x1234 * 2 ^ 21) = some (.pushWord 0x1234) ∧
  decodeTableWord 8 0b01001 = some .incrementWord ∧
  decodeTableWord 40 (0b10001 + 9 * 2 ^ 5 + 0xAB * 2 ^ 21) = some (.oamWrite 9 0xAB) ∧
  decode { requestOf 0b11000 with n := 3 } = .ok (.tileDecode 3) ∧
  decode { requestOf 0b11001 with tile := 0x8001, x := 0b111, y := 0b000 } =
    .ok (.tileGet ((Vector.replicate 64 0).set 0 1 |>.set 7 2) 7 0) ∧
  decode { requestOf 0b11010 with pal := 0x3027160F } =
    .ok (.colorize (Vector.replicate 64 0) #v[0x0F, 0x16, 0x27, 0x30]) ∧
  decode { requestOf 0b11101 with attr5 := 0b10111 } = .ok (.attrEncode
    { verticalFlip := true, horizontalFlip := false, hide := true, palette := 3 }) ∧
  decodeTableWord 8 0b01010 = none

/-- R112, R117, R303: a request either names one operation, which is well formed, or its code is one of the reserved ones;
and then the block answers `Refused(op)`, marks the run, and changes nothing else.  That the refusal is a next state is
log 9, and that the request is taken from a queue of inputs is log 6. -/
def Obligations.ReservedCodesAreRefused : Prop :=
  (∀ r : Request, r.op.toNat ∈ [0x0A, 0x0B, 0x0C, 0x0D, 0x0E, 0x0F, 0x13, 0x14, 0x15, 0x16, 0x17, 0x1E, 0x1F] →
    decode r = .error (.reservedOp r.op)) ∧
  (∀ r : Request, r.op.toNat ∉ [0x0A, 0x0B, 0x0C, 0x0D, 0x0E, 0x0F, 0x13, 0x14, 0x15, 0x16, 0x17, 0x1E, 0x1F] →
    ∃ i, decode r = .ok i ∧ i.WellFormed) ∧
  (∀ (s : State) (r : Request) (rest : List Input), s.fault = none → s.inputs = .request r :: rest →
    decode r = .error (.reservedOp r.op) →
    step s = .next { s with inputs := rest, response := some (.refused r.op), refusalMark := true })

/-- R303: the refusal mark is kept for the whole run. -/
def Obligations.RefusalMarkIsKept : Prop :=
  ∀ s t : State, step s = .next t → s.refusalMark = true → t.refusalMark = true

/-- R300, R303: a faulted block is never a successful end state, nor is a run with a refused request: a state with a fault
record or a refusal mark is not successful, no step (and so no run) makes a state that was not successful into one that
is, and a step that refuses a request or an operation that faults leaves one that is not.  That both answer a next state
is log 9 and log 1.
The queue of inputs is log 6. -/
def Obligations.FaultedOrRefusedRunsNeverSucceed : Prop :=
  (∀ (s : State) (f : FaultRecord), s.fault = some f → ¬ s.Successful) ∧
  (∀ s : State, s.refusalMark = true → ¬ s.Successful) ∧
  (∀ s t : State, step s = .next t → t.Successful → s.Successful) ∧
  (∀ (k : Nat) (s t : State), Host.Core.run Sys2Proof.core k s = .next t → t.Successful → s.Successful) ∧
  (∀ (s t : State) (r : Request) (op : BitVec 5) (rest : List Input), s.inputs = .request r :: rest →
    decode r = .error (.reservedOp op) → step s = .next t → ¬ t.Successful) ∧
  (∀ (i : Instr) (s t : State) (f : FaultRecord), exec i s = .next t → t.response = some (.fault f) → ¬ t.Successful)

/-- R96, R98, R99, R110: the place of every field of each port format, and that no format drops or moves a bit: reading a
port value and putting it back gives the same bits. -/
def Obligations.PortValuesKeepEveryBit : Prop :=
  (∀ b : BitVec 5, attributeToPort (attributeOfPort b) = b ∧
    (attributeOfPort b).verticalFlip = b.getLsbD 4 ∧ (attributeOfPort b).horizontalFlip = b.getLsbD 3 ∧
    (attributeOfPort b).hide = b.getLsbD 2 ∧ (attributeOfPort b).palette = b.extractLsb' 0 2) ∧
  (∀ b : BitVec 2, intentCode (intentOfCode b) = b) ∧
  (intentOfCode 0 = .idle ∧ intentOfCode 1 = .writeOamAddr ∧ intentOfCode 2 = .writeOamData ∧
    intentOfCode 3 = .reserved) ∧
  (∀ b : BitVec 128, tileToPort (tileOfPort b) = b) ∧
  (∀ b : BitVec 1536, coloredTileToPort (coloredTileOfPort b) = b) ∧
  (∀ b : BitVec 32, paletteToPort (paletteOfPort b) = b) ∧
  (∀ (b : BitVec 32) (i : Fin 4), (paletteOfPort b)[i] = b.extractLsb' (8 * i.val) 8) ∧
  (∀ (b : BitVec 128) (x y : Fin 8), (tileOfPort b)[8 * y.val + x.val] = b.extractLsb' (2 * (8 * y.val + x.val)) 2) ∧
  (∀ (b : BitVec 1536) (x y : Fin 8),
    (coloredTileOfPort b)[8 * y.val + x.val] = b.extractLsb' (24 * (8 * y.val + x.val)) 24)

/-- R7, R339: when the next input is a request that names an operation, a step is that operation's meaning in the state
with the input taken, and nothing else; with no input to serve the block is idle, and a step changes nothing.  That the
inputs stand in a queue is the model's choice (log 6). -/
def Obligations.StepRunsTheDecodedRequest : Prop :=
  (∀ (s : State) (r : Request) (rest : List Input) (i : Instr), s.fault = none → s.inputs = .request r :: rest →
    decode r = .ok i → i.WellFormed → step s = exec i { s with inputs := rest }) ∧
  (∀ s : State, s.fault = none → s.inputs = [] → step s = .next s)

/-! ### Bus access -/

/-- R61: every CPU address selects exactly one region, by these ranges, with the index and the offset given. -/
def Obligations.AddressMapOfTheCpuSpace : Prop :=
  ∀ a : Addr,
    (region a = .workRam ↔ a.toNat ≤ 0x1FFF) ∧
    (region a = .ppuWindow ↔ 0x2000 ≤ a.toNat ∧ a.toNat ≤ 0x3FFF) ∧
    (region a = .unimplemented ↔ 0x4000 ≤ a.toNat ∧ a.toNat ≤ 0x7FFF) ∧
    (region a = .programRom ↔ 0x8000 ≤ a.toNat) ∧
    wramIndex a = a.toNat % 0x800 ∧
    (0x8000 ≤ a.toNat → romOffset a = a.toNat - 0x8000)

/-- R62, R120, R244: `get_byte(a)` answers the byte its region holds, and changes nothing but the diagnostics of the
unimplemented region and the count of free values drawn; where the ROM offset is out of range and ROM does not mirror it
raises `ROM_RANGE_FAULT`.  Which free byte a draw takes, and the count that goes up by one, are the model's choice
(log 4), and so is the state after the fault (log 1). -/
def Obligations.GetByteReadsItsRegion : Prop :=
  (∀ r : Request, r.op = 0x00 → decode r = .ok (.getByte r.a)) ∧
  (∀ (s : State) (a : Addr),
    (a.toNat < 0x2000 →
      exec (.getByte a) s = .next { s with response := some (.byte (s.wram.read (a.toNat % 0x800))) }) ∧
    (0x2000 ≤ a.toNat → a.toNat < 0x4000 → a.toNat % 8 = s.cfg.oamDataSel.toNat →
      exec (.getByte a) s = .next { s with response := some (.byte s.oamData) }) ∧
    (0x2000 ≤ a.toNat → a.toNat < 0x4000 → a.toNat % 8 ≠ s.cfg.oamDataSel.toNat →
      exec (.getByte a) s =
        .next { s with response := some (.byte (Config.ppuExtRead s.draws)), draws := s.draws + 1 }) ∧
    (0x4000 ≤ a.toNat → a.toNat < 0x8000 →
      exec (.getByte a) s = .next { s with response := some (.byte 0x00),
                                           diag := s.diag ++ [{ kind := .unmappedRead, addr := a }] }) ∧
    (0x8000 ≤ a.toNat → a.toNat - 0x8000 < s.cfg.rom.size →
      exec (.getByte a) s = .next { s with response := some (.byte (s.cfg.rom.cells.read (a.toNat - 0x8000))) }) ∧
    (0x8000 ≤ a.toNat → s.cfg.rom.size ≤ a.toNat - 0x8000 → s.cfg.romRange = .mirror →
      exec (.getByte a) s =
        .next { s with response := some (.byte (s.cfg.rom.cells.read ((a.toNat - 0x8000) % s.cfg.rom.size))) }) ∧
    (0x8000 ≤ a.toNat → s.cfg.rom.size ≤ a.toNat - 0x8000 → s.cfg.romRange = .fault →
      exec (.getByte a) s = .next (raiseFault (.romRange a) s)))

/-- R121: `get_word(a)` answers the bytes at `a` (low) and `a + 1` (high), read in that order, and changes nothing but the
diagnostics and the count of free values drawn; at 0xFFFF the high byte is at 0x0000 under `Wrap` and under `Fault` the
word faults, each byte's ROM fault coming in its turn.  Which free byte each draw takes, and the count, are the model's
choice (log 4), and so is the state after a fault (log 1). -/
def Obligations.GetWordReadsLowThenHigh : Prop :=
  (∀ r : Request, r.op = 0x01 → decode r = .ok (.getWord r.a)) ∧
  (∀ (s : State) (a : Addr), Readable s.cfg a → Advances s.cfg a 1 → Readable s.cfg (a + 1) →
    exec (.getWord a) s = .next { s with
      response := some (.word (seenByte s (a + 1) (s.draws + drawsAt s.cfg a) ++ seenByte s a s.draws))
      diag := s.diag ++ readDiag a ++ readDiag (a + 1)
      draws := s.draws + drawsAt s.cfg a + drawsAt s.cfg (a + 1) }) ∧
  (∀ (s : State) (a : Addr), ¬ Readable s.cfg a → exec (.getWord a) s = .next (raiseFault (.romRange a) s)) ∧
  (∀ (s : State) (a : Addr), Readable s.cfg a → ¬ Advances s.cfg a 1 →
    exec (.getWord a) s = .next (raiseFault (.addrOverflow a) s)) ∧
  (∀ (s : State) (a : Addr), Readable s.cfg a → Advances s.cfg a 1 → ¬ Readable s.cfg (a + 1) →
    exec (.getWord a) s = .next (raiseFault (.romRange (a + 1)) s))

/-- R122: a word read is two byte reads as two requests with nothing between them.  At an external PPU register the drawn
bytes of the two sides agree only by the model's choice of how it draws (log 4). -/
def Obligations.WordReadIsTwoByteReads : Prop :=
  ∀ (s t u : State) (a : Addr) (lo hi : Byte), a ≠ 0xFFFF →
    exec (.getByte a) s = .next t → t.response = some (.byte lo) →
    exec (.getByte (a + 1)) t = .next u → u.response = some (.byte hi) →
    exec (.getWord a) s = .next { u with response := some (.word (lo.setWidth 16 ||| (hi.setWidth 16 <<< 8))) }

/-- R123, R63: `set_byte` into work RAM replaces the one cell its address selects, and changes nothing else. -/
def Obligations.SetByteStoresInWorkRam : Prop :=
  ∀ (s : State) (a : Addr) (v : Byte), s.wram.wf = true → a.toNat < 0x2000 →
    ∃ t : State, exec (.setByte a v) s = .next t ∧
      t = { s with wram := t.wram, response := some .done } ∧
      ∀ b : Addr, b.toNat < 0x2000 →
        t.wram.read (wramIndex b) =
          if b.toNat % 0x800 = a.toNat % 0x800 then v else s.wram.read (wramIndex b)

/-- R124: `set_byte` into the unimplemented region or the ROM window changes nothing but the diagnostics, and does not fault
whatever the ROM's size is. -/
def Obligations.SetByteElsewhereIsDiscarded : Prop :=
  ∀ (s : State) (a : Addr) (v : Byte),
    (0x4000 ≤ a.toNat → a.toNat < 0x8000 → exec (.setByte a v) s =
      .next { s with diag := s.diag ++ [{ kind := .unmappedWrite, addr := a }], response := some .done }) ∧
    (0x8000 ≤ a.toNat → exec (.setByte a v) s =
      .next { s with diag := s.diag ++ [{ kind := .romWrite, addr := a }], response := some .done })

/-- R242: a CPU write to the OAM address register sets `oam_addr`, latches `oam_data`, leaves `intent = Idle` and writes no
OAM byte. -/
def Obligations.OamAddressWriteLatches : Prop :=
  ∀ (s : State) (a : Addr) (v : Byte), 0x2000 ≤ a.toNat → a.toNat < 0x4000 →
    a.toNat % 8 = s.cfg.oamAddrSel.toNat →
    exec (.setByte a v) s =
      .next { s with oamAddr := v, oamData := oamGet s v, intent := .idle, response := some .done }

/-- R243: a CPU write to the OAM data register commits the byte at `oam_addr` (masked at an attribute byte), advances
`oam_addr` modulo 256, refreshes `oam_data` from the new address, and changes nothing else. -/
def Obligations.OamDataWriteCommitsAndAdvances : Prop :=
  ∀ (s : State) (a : Addr) (v : Byte), s.cfg.oamAddrSel ≠ s.cfg.oamDataSel →
    0x2000 ≤ a.toNat → a.toNat < 0x4000 → a.toNat % 8 = s.cfg.oamDataSel.toNat →
    ∃ t : State, exec (.setByte a v) s = .next t ∧
      t = { s with oam := t.oam, oamAddr := s.oamAddr + 1, oamData := oamGet t (s.oamAddr + 1), intent := .idle,
                   response := some .done } ∧
      ∀ j : Byte, oamGet t j =
        if j = s.oamAddr then (if j.toNat % 4 = 2 then v &&& 0xE3 else v) else oamGet s j

/-- R245: a CPU write to any other register is handed to the external register block with its address and value, and changes
no state of the block.
The list of the writes handed out is the model's choice (log 8). -/
def Obligations.OtherRegisterWritesAreHandedOut : Prop :=
  ∀ (s : State) (a : Addr) (v : Byte), 0x2000 ≤ a.toNat → a.toNat < 0x4000 →
    a.toNat % 8 ≠ s.cfg.oamAddrSel.toNat → a.toNat % 8 ≠ s.cfg.oamDataSel.toNat →
    exec (.setByte a v) s =
      .next { s with extWrites := s.extWrites ++ [{ addr := a, value := v }], response := some .done }

/-- R126: a word write is two byte writes, low byte first, to the one address under `SameAddress` and to `a` and `a + 1`
under `Split`; only `Split` faults, where `a + 1` passes 0xFFFF under `ADDR_OVERFLOW = Fault`.  The state after that
fault is the model's choice (log 1). -/
def Obligations.SetWordIsTwoByteWrites : Prop :=
  (∀ r : Request, r.op = 0x03 → decode r = .ok (.setWord r.a r.d)) ∧
  (∀ (s : State) (a : Addr) (w : Word),
    (s.cfg.setWordMode = .sameAddress → ∃ t u : State,
      exec (.setByte a (w.extractLsb' 0 8)) s = .next t ∧ exec (.setByte a (w.extractLsb' 8 8)) t = .next u ∧
      exec (.setWord a w) s = .next u) ∧
    (s.cfg.setWordMode = .split → Advances s.cfg a 1 → ∃ t u : State,
      exec (.setByte a (w.extractLsb' 0 8)) s = .next t ∧ exec (.setByte (a + 1) (w.extractLsb' 8 8)) t = .next u ∧
      exec (.setWord a w) s = .next u) ∧
    (s.cfg.setWordMode = .split → a = 0xFFFF → s.cfg.addrOverflow = .fault →
      exec (.setWord a w) s = .next (raiseFault (.addrOverflow a) s)))

/-- R127, R67: what a word write leaves in work RAM: under `SameAddress` the high byte at `a` and `a + 1` untouched; under
`Split` the low byte at `a` and the high byte at `a + 1`; every other cell, and everything else, as before. -/
def Obligations.SetWordInWorkRamByMode : Prop :=
  ∀ (s : State) (a : Addr) (w : Word), s.wram.wf = true →
    (s.cfg.setWordMode = .sameAddress → a.toNat < 0x2000 →
      ∃ t : State, exec (.setWord a w) s = .next t ∧
        t = { s with wram := t.wram, response := some .done } ∧
        ∀ k, t.wram.read k = if k = wramIndex a then w.extractLsb' 8 8 else s.wram.read k) ∧
    (s.cfg.setWordMode = .split → a.toNat < 0x1FFF →
      ∃ t : State, exec (.setWord a w) s = .next t ∧
        t = { s with wram := t.wram, response := some .done } ∧
        ∀ k, t.wram.read k =
          if k = wramIndex (a + 1) then w.extractLsb' 8 8
          else if k = wramIndex a then w.extractLsb' 0 8 else s.wram.read k)

/-- R246: the three word writes at the OAM registers, with the default selects 3 and 4: at the data register under
`SameAddress` two OAM bytes are committed; at the address register under `Split` the low byte becomes the address and the
high byte is committed there; at the address register under `SameAddress` the high byte becomes the address. -/
def Obligations.SetWordAtTheOamRegisters : Prop :=
  ∀ (s : State) (w : Word), s.cfg.oamAddrSel = 3 → s.cfg.oamDataSel = 4 →
    (s.cfg.setWordMode = .sameAddress → ∃ t : State, exec (.setWord 0x2004 w) s = .next t ∧
      t = { s with oam := t.oam, oamAddr := s.oamAddr + 2, oamData := oamGet t (s.oamAddr + 2), intent := .idle,
                   response := some .done } ∧
      ∀ j : Byte, oamGet t j =
        if j = s.oamAddr + 1 then (if j.toNat % 4 = 2 then w.extractLsb' 8 8 &&& 0xE3 else w.extractLsb' 8 8)
        else if j = s.oamAddr then (if j.toNat % 4 = 2 then w.extractLsb' 0 8 &&& 0xE3 else w.extractLsb' 0 8)
        else oamGet s j) ∧
    (s.cfg.setWordMode = .split → ∃ t : State, exec (.setWord 0x2003 w) s = .next t ∧
      t = { s with oam := t.oam, oamAddr := w.extractLsb' 0 8 + 1, oamData := oamGet t (w.extractLsb' 0 8 + 1),
                   intent := .idle, response := some .done } ∧
      ∀ j : Byte, oamGet t j =
        if j = w.extractLsb' 0 8 then (if j.toNat % 4 = 2 then w.extractLsb' 8 8 &&& 0xE3 else w.extractLsb' 8 8)
        else oamGet s j) ∧
    (s.cfg.setWordMode = .sameAddress →
      exec (.setWord 0x2003 w) s = .next { s with
        oamAddr := w.extractLsb' 8 8, oamData := oamGet s (w.extractLsb' 8 8), intent := .idle,
        response := some .done })

/-- R64: writing at one address of work RAM and reading at any of its mirrors returns the value written. -/
def Obligations.MirrorsOfWorkRamAreOneCell : Prop :=
  ∀ (s : State) (a b : Addr) (v : Byte), s.wram.wf = true → a.toNat < 0x2000 → b.toNat < 0x2000 →
    a.toNat % 0x800 = b.toNat % 0x800 →
    ∃ t : State, exec (.setByte a v) s = .next t ∧
      exec (.getByte b) t = .next { t with response := some (.byte v) }

/-! ### Stack -/

/-- R140: `push_byte` stores at `0x0100 + S`, moves `S` down by one modulo 256, changes nothing else, and never fails. -/
def Obligations.PushByteStoresThenDecrements : Prop :=
  (∀ r : Request, r.op = 0x04 → decode r = .ok (.pushByte (r.d.extractLsb' 0 8))) ∧
  ∀ (s : State) (v : Byte), s.wram.wf = true →
    ∃ t : State, exec (.pushByte v) s = .next t ∧
      t = { s with wram := t.wram, sp := s.sp - 1, response := some .done } ∧
      wramIndex (stackAddr s.sp) = 0x100 + s.sp.toNat ∧
      ∀ k, t.wram.read k = if k = wramIndex (stackAddr s.sp) then v else s.wram.read k

/-- R141: `push_word` stores the high byte at `0x0100 + S` and the low byte one slot below it, modulo 256 in the page, moves
`S` down by two, and changes nothing else. -/
def Obligations.PushWordStoresHighThenLow : Prop :=
  (∀ r : Request, r.op = 0x05 → decode r = .ok (.pushWord r.d)) ∧
  ∀ (s : State) (w : Word), s.wram.wf = true →
    ∃ t : State, exec (.pushWord w) s = .next t ∧
      t = { s with wram := t.wram, sp := s.sp - 2, response := some .done } ∧
      ∀ k, t.wram.read k =
        if k = 0x100 + (s.sp.toNat + 255) % 256 then w.extractLsb' 0 8
        else if k = 0x100 + s.sp.toNat then w.extractLsb' 8 8 else s.wram.read k

/-- R142, R143: a pop moves `S` up modulo 256 first and reads at `0x0100 + S`; a word is popped low byte first; nothing else
changes, the bytes read included, and no pop fails. -/
def Obligations.PopsIncrementThenRead : Prop :=
  (∀ r : Request, r.op = 0x06 → decode r = .ok .popByte) ∧
  (∀ r : Request, r.op = 0x07 → decode r = .ok .popWord) ∧
  ∀ s : State,
    exec .popByte s = .next { s with
      sp := s.sp + 1
      response := some (.byte (s.wram.read (0x100 + (s.sp.toNat + 1) % 256))) } ∧
    exec .popWord s = .next { s with
      sp := s.sp + 2
      response := some (.word (s.wram.read (0x100 + (s.sp.toNat + 2) % 256) ++
        s.wram.read (0x100 + (s.sp.toNat + 1) % 256))) }

/-- R144: from any `S`, a push and then a pop of the same width return the value and leave `S` as it was. -/
def Obligations.StackRoundTrips : Prop :=
  ∀ s : State, s.wram.wf = true →
    (∀ v : Byte, ∃ t u : State, exec (.pushByte v) s = .next t ∧ exec .popByte t = .next u ∧
      u.response = some (.byte v) ∧ u.sp = s.sp) ∧
    (∀ w : Word, ∃ t u : State, exec (.pushWord w) s = .next t ∧ exec .popWord t = .next u ∧
      u.response = some (.word w) ∧ u.sp = s.sp)

/-- R145: the wrap of the stack pointer: a push at `S = 0x00` leaves 0xFF, a pop at `S = 0xFF` reads 0x0100 and leaves 0x00,
and neither faults or is logged. -/
def Obligations.StackPointerWraps : Prop :=
  (∀ (s : State) (v : Byte), s.sp = 0x00 → ∃ t : State, exec (.pushByte v) s = .next t ∧ t.sp = 0xFF ∧
    t.fault = s.fault ∧ t.diag = s.diag) ∧
  (∀ s : State, s.sp = 0xFF → ∃ t : State, exec .popByte s = .next t ∧ t.sp = 0x00 ∧
    t.response = some (.byte (s.wram.read 0x100)) ∧ t.fault = s.fault ∧ t.diag = s.diag)

/-! ### Fetch -/

/-- R160: `increment_byte` answers the byte read at `PC` and advances `PC` by one; past 0xFFFF it wraps or faults as
`ADDR_OVERFLOW` says, and the read's fault comes first.  Which free byte a draw takes, and the count, are the model's
choice (log 4), and so is the state after a fault (log 1). -/
def Obligations.IncrementByteFetches : Prop :=
  (∀ r : Request, r.op = 0x08 → decode r = .ok .incrementByte) ∧
  ∀ s : State,
    (Readable s.cfg s.pc → Advances s.cfg s.pc 1 →
      exec .incrementByte s = .next { s with
        pc := s.pc + 1
        response := some (.byte (seenByte s s.pc s.draws))
        diag := s.diag ++ readDiag s.pc
        draws := s.draws + drawsAt s.cfg s.pc }) ∧
    (¬ Readable s.cfg s.pc → exec .incrementByte s = .next (raiseFault (.romRange s.pc) s)) ∧
    (Readable s.cfg s.pc → s.pc = 0xFFFF → s.cfg.addrOverflow = .fault →
      exec .incrementByte s = .next (raiseFault (.addrOverflow s.pc) s))

/-- R161: `increment_word` answers the word at `PC`, low byte first, and advances `PC` by two; its faults are those of the
word read and then that of the advance, at `PC = 0xFFFE` or 0xFFFF under `ADDR_OVERFLOW = Fault`.  Which free byte each
draw takes, and the count, are the model's choice (log 4), and so is the state after a fault (log 1). -/
def Obligations.IncrementWordFetches : Prop :=
  (∀ r : Request, r.op = 0x09 → decode r = .ok .incrementWord) ∧
  ∀ s : State,
    (Readable s.cfg s.pc → Readable s.cfg (s.pc + 1) → Advances s.cfg s.pc 2 →
      exec .incrementWord s = .next { s with
        pc := s.pc + 2
        response := some (.word
          (seenByte s (s.pc + 1) (s.draws + drawsAt s.cfg s.pc) ++ seenByte s s.pc s.draws))
        diag := s.diag ++ readDiag s.pc ++ readDiag (s.pc + 1)
        draws := s.draws + drawsAt s.cfg s.pc + drawsAt s.cfg (s.pc + 1) }) ∧
    (∀ f, exec (.getWord s.pc) s = .next (raiseFault f s) →
      exec .incrementWord s = .next (raiseFault f s)) ∧
    (Readable s.cfg s.pc → Readable s.cfg (s.pc + 1) → s.pc = 0xFFFE → s.cfg.addrOverflow = .fault →
      exec .incrementWord s = .next (raiseFault (.addrOverflow s.pc) s))

/-- R77, R163: a fetch from work RAM sees the latest write to the cell, through any mirror. -/
def Obligations.FetchSeesEarlierWrites : Prop :=
  ∀ (s : State) (a : Addr) (v : Byte), s.wram.wf = true → a.toNat < 0x2000 → s.pc.toNat < 0x2000 →
    a.toNat % 0x800 = s.pc.toNat % 0x800 →
    ∃ t : State, exec (.setByte a v) s = .next t ∧
      exec .incrementByte t = .next { t with pc := s.pc + 1, response := some (.byte v) }

/-! ### Tiles and colours -/

/-- R170, R171: `tile_decode(n)` answers the tile whose pixel `(x, y)` has as its high bit, and as its low bit, bit `7 - x`
of the high-plane and low-plane bytes of row `y`; it writes no state; it faults unless all 16 bytes are in tile memory.
The state after that fault is the model's choice (log 1). -/
def Obligations.TileDecodeCombinesThePlanes : Prop :=
  (∀ r : Request, r.op = 0x18 → decode r = .ok (.tileDecode r.n)) ∧
  ∀ (s : State) (n : Nat),
    (16 * n + 16 ≤ s.cfg.tileMem.size → ∃ T : Tile,
      exec (.tileDecode n) s = .next { s with response := some (.tile T) } ∧
      ∀ x y : Fin 8, T[8 * y.val + x.val].toNat =
        2 * ((s.cfg.tileMem.cells.read (16 * n + y.val + 8)).getLsbD (7 - x.val)).toNat +
          ((s.cfg.tileMem.cells.read (16 * n + y.val)).getLsbD (7 - x.val)).toNat) ∧
    (s.cfg.tileMem.size < 16 * n + 16 → exec (.tileDecode n) s = .next (raiseFault (.tileIndex n) s))

/-- R173: a record of sixteen 0x00 bytes decodes to the tile of all zeros, and one of eight 0xFF and eight 0x00 bytes to the
tile of all ones. -/
def Obligations.UniformRecordsDecodeUniformly : Prop :=
  ∀ (s : State) (n : Nat), 16 * n + 16 ≤ s.cfg.tileMem.size →
    ((∀ k, k < 16 → s.cfg.tileMem.cells.read (16 * n + k) = 0x00) →
      exec (.tileDecode n) s = .next { s with response := some (.tile (Vector.replicate 64 0)) }) ∧
    ((∀ k, k < 8 → s.cfg.tileMem.cells.read (16 * n + k) = 0xFF) →
      (∀ k, 8 ≤ k → k < 16 → s.cfg.tileMem.cells.read (16 * n + k) = 0x00) →
      exec (.tileDecode n) s = .next { s with response := some (.tile (Vector.replicate 64 1)) })

/-- R172, R193: `tile_get` and `colored_get` answer the cell of column `x` and row `y` and change nothing; a coordinate of 8
or more faults, reporting both.  The state after that fault is the model's choice (log 1), and so is that the operations
carry coordinates as naturals (log 11). -/
def Obligations.GridAccessors : Prop :=
  (∀ r : Request, r.op = 0x19 → decode r = .ok (.tileGet (tileOfPort r.tile) r.x.toNat r.y.toNat)) ∧
  (∀ r : Request, r.op = 0x1B → decode r = .ok (.coloredGet (coloredTileOfPort r.ctile) r.x.toNat r.y.toNat)) ∧
  (∀ (s : State) (T : Tile) (x y : Fin 8),
    exec (.tileGet T x.val y.val) s = .next { s with response := some (.pixel T[8 * y.val + x.val]) }) ∧
  (∀ (s : State) (C : ColoredTile) (x y : Fin 8),
    exec (.coloredGet C x.val y.val) s = .next { s with response := some (.colour C[8 * y.val + x.val]) }) ∧
  (∀ (s : State) (T : Tile) (x y : Nat), (8 ≤ x ∨ 8 ≤ y) →
    exec (.tileGet T x y) s = .next (raiseFault (.tileCoord x y) s)) ∧
  (∀ (s : State) (C : ColoredTile) (x y : Nat), (8 ≤ x ∨ 8 ≤ y) →
    exec (.coloredGet C x y) s = .next (raiseFault (.tileCoord x y) s))

/-- R190 to R192: `colorize` answers, for each cell, the master palette's colour at the palette selection's entry for the
cell's pixel index, and changes nothing; if any of the four entries is 64 or more it faults with the lowest-numbered one,
whichever entries the tile uses.  The state after that fault is the model's choice (log 1). -/
def Obligations.ColorizeMapsEveryCell : Prop :=
  (∀ r : Request, r.op = 0x1A → decode r = .ok (.colorize (tileOfPort r.tile) (paletteOfPort r.pal))) ∧
  ∀ (s : State) (T : Tile) (pal : PaletteSelection),
    ((∀ k : Fin 4, pal[k].toNat < 64) → ∃ C : ColoredTile,
      exec (.colorize T pal) s = .next { s with response := some (.coloredTile C) } ∧
      ∀ j : Fin 64, s.cfg.masterPalette[(pal[T[j].toFin]).toNat]? = some C[j]) ∧
    (∀ k : Fin 4, 64 ≤ pal[k].toNat → (∀ j : Fin 4, j < k → pal[j].toNat < 64) →
      exec (.colorize T pal) s = .next (raiseFault (.paletteIndex pal[k]) s))

/-- R195: with the palette selection `[0, 1, 2, 3]`, the colour read at a cell of pixel index `i` is master palette entry `i`. -/
def Obligations.IdentityPaletteShowsTheIndex : Prop :=
  ∀ (s : State) (T : Tile) (x y : Fin 8), ∃ (C : ColoredTile) (t : State),
    exec (.colorize T #v[0, 1, 2, 3]) s = .next t ∧ t.response = some (.coloredTile C) ∧
    exec (.coloredGet C x.val y.val) t =
      .next { t with response := some (.colour (s.cfg.masterPalette[T[8 * y.val + x.val].toNat]'(by
        have := T[8 * y.val + x.val].isLt; omega))) }

/-! ### OAM -/

/-- R210: `oam_read(i)` answers the field `i % 4` of entry `i / 4`, the attribute packed with bits 4:2 zero, and touches no
state. -/
def Obligations.OamReadDispatchesOnTheField : Prop :=
  (∀ r : Request, r.op = 0x10 → decode r = .ok (.oamRead (r.a.extractLsb' 0 8))) ∧
  ∀ (s : State) (e : Fin 64) (i : Byte),
    (i.toNat = 4 * e.val → exec (.oamRead i) s = .next { s with response := some (.byte s.oam[e].y) }) ∧
    (i.toNat = 4 * e.val + 1 →
      exec (.oamRead i) s = .next { s with response := some (.byte s.oam[e].tileIndex) }) ∧
    (i.toNat = 4 * e.val + 2 → ∃ b : Byte, exec (.oamRead i) s = .next { s with response := some (.byte b) } ∧
      b &&& 0x1C = 0 ∧ b.getLsbD 7 = s.oam[e].attr.verticalFlip ∧ b.getLsbD 6 = s.oam[e].attr.horizontalFlip ∧
      b.getLsbD 5 = s.oam[e].attr.hide ∧ b.extractLsb' 0 2 = s.oam[e].attr.palette) ∧
    (i.toNat = 4 * e.val + 3 → exec (.oamRead i) s = .next { s with response := some (.byte s.oam[e].x) })

/-- R211: `oam_write(i, v)` replaces one field of one entry, never `oam_addr`, `oam_data` or `intent`; the byte reads back as
`v`, and at an attribute byte as `v & 0xE3`; every other OAM byte reads as before. -/
def Obligations.OamWriteReplacesOneField : Prop :=
  (∀ r : Request, r.op = 0x11 → decode r = .ok (.oamWrite (r.a.extractLsb' 0 8) (r.d.extractLsb' 0 8))) ∧
  ∀ (s : State) (i v : Byte), ∃ t : State, exec (.oamWrite i v) s = .next t ∧
    t = { s with oam := t.oam, response := some .done } ∧
    ∀ j : Byte, exec (.oamRead j) t = .next { t with response := some (.byte
      (if j = i then (if j.toNat % 4 = 2 then v &&& 0xE3 else v) else oamGet s j)) }

/-- R212 to R215: `oam_sync` by intent: an address intent latches `oam_data`; a data intent commits, advances and refreshes;
any other intent does nothing; and `intent` becomes `Idle`. -/
def Obligations.OamSyncActsOnTheIntent : Prop :=
  (∀ r : Request, r.op = 0x12 → decode r = .ok .oamSync) ∧
  ∀ s : State,
    (s.intent = .writeOamAddr → exec .oamSync s =
      .next { s with oamData := oamGet s s.oamAddr, intent := .idle, response := some .done }) ∧
    (s.intent = .writeOamData → ∃ t : State, exec .oamSync s = .next t ∧
      t = { s with oam := t.oam, oamAddr := s.oamAddr + 1, oamData := oamGet t (s.oamAddr + 1), intent := .idle,
                   response := some .done } ∧
      ∀ j : Byte, oamGet t j =
        if j = s.oamAddr then (if j.toNat % 4 = 2 then s.oamData &&& 0xE3 else s.oamData) else oamGet s j) ∧
    (s.intent = .idle ∨ s.intent = .reserved → exec .oamSync s =
      .next { s with intent := .idle, response := some .done })

/-- R216: right after a sync whose intent was an address or a data write, `oam_data` is the OAM byte at `oam_addr`; so it is
after any CPU write to either OAM register. -/
def Obligations.SyncLeavesTheLatchInvariant : Prop :=
  (∀ s t : State, (s.intent = .writeOamAddr ∨ s.intent = .writeOamData) → exec .oamSync s = .next t →
    t.oamData = oamGet t t.oamAddr) ∧
  (∀ (s t : State) (a : Addr) (v : Byte), 0x2000 ≤ a.toNat → a.toNat < 0x4000 →
    (a.toNat % 8 = s.cfg.oamAddrSel.toNat ∨ a.toNat % 8 = s.cfg.oamDataSel.toNat) →
    exec (.setByte a v) s = .next t → t.oamData = oamGet t t.oamAddr)

/-- R216: the latch invariant is broken only by a direct `oam_write` at `oam_addr`: every other step that does not fault,
a register write of the external CPU and a refused request included, keeps `oam_data = OAM.read(oam_addr)`.  (The inputs
are log 6 and log 10.) -/
def Obligations.OnlyADirectOamWriteBreaksTheLatch : Prop :=
  ∀ s t : State, s.oamData = oamGet s s.oamAddr → step s = .next t → t.fault = none →
    t.oamData = oamGet t t.oamAddr ∨
    ∃ (r : Request) (rest : List Input) (v : Byte),
      s.inputs = .request r :: rest ∧ decode r = .ok (.oamWrite s.oamAddr v)

/-- R217: 256 consecutive CPU writes to the OAM data register, from `oam_addr = k`, put byte `j` of the sequence at OAM byte
`k + j` modulo 256 (masked at attribute bytes) and leave `oam_addr = k` again; run as steps of the machine.
That the requests stand in a queue of inputs is the model's choice (log 6). -/
def Obligations.SequentialUploadFillsOam : Prop :=
  ∀ (s : State) (a : Addr) (bytes : Vector Byte 256), s.fault = none → s.cfg.oamAddrSel ≠ s.cfg.oamDataSel →
    0x2000 ≤ a.toNat → a.toNat < 0x4000 → a.toNat % 8 = s.cfg.oamDataSel.toNat →
    s.inputs = bytes.toList.map (fun v => .request (encode (.setByte a v))) →
    ∃ t : State, Host.Core.run Sys2Proof.core 256 s = .next t ∧ t.oamAddr = s.oamAddr ∧
      ∀ j : Fin 256, oamGet t (s.oamAddr + BitVec.ofNat 8 j.val) =
        if (s.oamAddr + BitVec.ofNat 8 j.val).toNat % 4 = 2 then bytes[j] &&& 0xE3 else bytes[j]

/-- R363: a direct table write does not refresh the latch: a CPU read of the OAM data register after it returns the old
`oam_data`. -/
def Obligations.DirectOamWriteLeavesTheLatchStale : Prop :=
  ∀ (s : State) (v : Byte) (a : Addr), 0x2000 ≤ a.toNat → a.toNat < 0x4000 → a.toNat % 8 = s.cfg.oamDataSel.toNat →
    ∃ t u : State, exec (.oamWrite s.oamAddr v) s = .next t ∧ exec (.getByte a) t = .next u ∧
      u.response = some (.byte s.oamData) ∧ u.oamAddr = s.oamAddr

/-! ### The attribute codec -/

/-- R231, R232: `attr_decode` takes bits 7, 6, 5 and 1:0 of the byte, and `attr_encode` puts them back with bits 4:2 zero; both
change nothing. -/
def Obligations.AttributeCodecFields : Prop :=
  (∀ r : Request, r.op = 0x1C → decode r = .ok (.attrDecode (r.d.extractLsb' 0 8))) ∧
  (∀ r : Request, r.op = 0x1D → decode r = .ok (.attrEncode (attributeOfPort r.attr5))) ∧
  (∀ (s : State) (b : Byte), exec (.attrDecode b) s = .next { s with response := some (.attr
    { verticalFlip := b.getLsbD 7, horizontalFlip := b.getLsbD 6, hide := b.getLsbD 5,
      palette := b.extractLsb' 0 2 }) }) ∧
  (∀ (s : State) (q : SpriteAttribute), ∃ b : Byte, exec (.attrEncode q) s = .next { s with response := some (.byte b) } ∧
    b.toNat = 128 * q.verticalFlip.toNat + 64 * q.horizontalFlip.toNat + 32 * q.hide.toNat + q.palette.toNat)

/-- R233, R234: encoding a decoded byte gives it masked by 0xE3, and the byte itself exactly when bits 4:2 are zero; decoding an
encoded attribute gives it back. -/
def Obligations.AttributeCodecRoundTrips : Prop :=
  (∀ (s : State) (b : Byte), ∃ (q : SpriteAttribute) (t u : State),
    exec (.attrDecode b) s = .next t ∧ t.response = some (.attr q) ∧
    exec (.attrEncode q) t = .next u ∧ u.response = some (.byte (b &&& 0xE3)) ∧ (b &&& 0xE3 = b ↔ b &&& 0x1C = 0)) ∧
  (∀ (s : State) (q : SpriteAttribute), ∃ (b : Byte) (t u : State),
    exec (.attrEncode q) s = .next t ∧ t.response = some (.byte b) ∧
    exec (.attrDecode b) t = .next u ∧ u.response = some (.attr q))
end

