-- ==== Sys2Proof/Laws/Memory.lean ====
section
/-! SUPPORT. The laws of a sparse memory: read after write, the canonical form, and that equal reads are equal
data. -/

namespace Sys2Proof.Memory

@[simp] theorem read_nil (k : Nat) : read [] k = blank := rfl

@[simp] theorem read_cons (c : Host.Cell) (m : Memory) (k : Nat) :
    read (c :: m) k = if k = c.1 then c.2 else read m k := rfl

theorem wf_cons (c : Host.Cell) (m : Memory) :
    wf (c :: m) = true ↔ c.2 ≠ blank ∧ (∀ d ∈ m, c.1 < d.1) ∧ wf m = true := by
  simp [wf, and_assoc]

/-- An index that no cell lists reads as blank. -/
theorem read_of_not_listed {m : Memory} {k : Nat} (h : ∀ c ∈ m, c.1 ≠ k) : read m k = blank := by
  induction m with
  | nil => rfl
  | cons c m ih =>
    rw [read_cons, if_neg (fun e => h c (by simp) e.symm), ih fun d hd => h d (by simp [hd])]

theorem read_put (k : Nat) (v : Byte) (m : Memory) (j : Nat) (h : read m k = blank) :
    read (put k v m) j = if j = k then v else read m j := by
  unfold put
  split
  · next hv =>
    split
    · next hj => rw [hj, h, hv]
    · rfl
  · rfl

/-- What a write changes: the cell written, and no other. -/
theorem read_write {m : Memory} (hm : wf m = true) (k : Nat) (v : Byte) (j : Nat) :
    read (write m k v) j = if j = k then v else read m j := by
  induction m with
  | nil => exact read_put k v [] j rfl
  | cons c m ih =>
    obtain ⟨-, hlt, hwf⟩ := (wf_cons c m).1 hm
    simp only [write]
    split
    · next hk =>
      refine read_put k v (c :: m) j (read_of_not_listed fun d hd => ?_)
      rcases List.mem_cons.1 hd with rfl | hd
      · exact Nat.ne_of_gt hk
      · exact Nat.ne_of_gt (Nat.lt_trans hk (hlt d hd))
    · split
      · next hk =>
        rw [read_put k v m j (read_of_not_listed fun d hd => hk ▸ Nat.ne_of_gt (hlt d hd)), read_cons]
        split
        · rfl
        · next hj => rw [if_neg (hk ▸ hj)]
      · next hk =>
        rw [read_cons, ih hwf, read_cons]
        split
        · next hj => rw [if_neg (fun e => hk (e.symm.trans hj))]
        · rfl

theorem read_write_same {m : Memory} (hm : wf m = true) (k : Nat) (v : Byte) :
    read (write m k v) k = v := by rw [read_write hm, if_pos rfl]

theorem read_write_other {m : Memory} (hm : wf m = true) {j k : Nat} (v : Byte) (h : j ≠ k) :
    read (write m k v) j = read m j := by rw [read_write hm, if_neg h]

/-- The cells of `put` are the new one and the old ones. -/
theorem mem_put {k : Nat} {v : Byte} {m : Memory} {c : Host.Cell} (h : c ∈ put k v m) : c = (k, v) ∨ c ∈ m := by
  unfold put at h
  split at h
  · exact .inr h
  · exact List.mem_cons.1 h

/-- The cells of a written memory are the new one and the old ones. -/
theorem mem_write {m : Memory} {k : Nat} {v : Byte} {c : Host.Cell} (h : c ∈ write m k v) :
    c = (k, v) ∨ c ∈ m := by
  induction m with
  | nil => exact mem_put h
  | cons d m ih =>
    simp only [write] at h
    split at h
    · exact mem_put h
    · split at h
      · exact (mem_put h).imp_right (List.mem_cons_of_mem d)
      · rcases List.mem_cons.1 h with rfl | h
        · exact .inr (by simp)
        · exact (ih h).imp_right (List.mem_cons_of_mem d)

theorem wf_put {k : Nat} {v : Byte} {m : Memory} (hm : wf m = true) (hk : ∀ c ∈ m, k < c.1) :
    wf (put k v m) = true := by
  unfold put
  split
  · exact hm
  · next hv => exact (wf_cons (k, v) m).2 ⟨hv, hk, hm⟩

/-- A write keeps the canonical form. -/
theorem wf_write {m : Memory} (hm : wf m = true) (k : Nat) (v : Byte) : wf (write m k v) = true := by
  induction m with
  | nil => exact wf_put hm (by simp)
  | cons c m ih =>
    obtain ⟨hc, hlt, hwf⟩ := (wf_cons c m).1 hm
    simp only [write]
    split
    · next hk =>
      refine wf_put hm fun d hd => ?_
      rcases List.mem_cons.1 hd with rfl | hd
      · exact hk
      · exact Nat.lt_trans hk (hlt d hd)
    · split
      · next hk => exact wf_put hwf fun d hd => hk ▸ hlt d hd
      · next hlt' hk =>
        refine (wf_cons c _).2 ⟨hc, fun d hd => ?_, ih hwf⟩
        rcases mem_write hd with rfl | hd
        · exact Nat.lt_of_le_of_ne (Nat.le_of_not_lt hlt') (Ne.symm hk)
        · exact hlt d hd

/-- A write inside the size keeps every listed cell inside it. -/
theorem within_write {m : Memory} {size k : Nat} (hm : within size m = true) (hk : k < size) (v : Byte) :
    within size (write m k v) = true := by
  simp only [within, List.all_eq_true, decide_eq_true_eq] at hm ⊢
  intro c hc
  rcases mem_write hc with rfl | hc
  · exact hk
  · exact hm c hc

/-- Two canonical memories that read alike are the same data. -/
theorem eq_of_reads : ∀ {m m' : Memory}, wf m = true → wf m' = true → (∀ k, read m k = read m' k) → m = m'
  | [], [], _, _, _ => rfl
  | [], c :: m', _, h', h => by
    have := h c.1
    simp only [read_nil, read_cons, if_true] at this
    exact absurd this.symm ((wf_cons c m').1 h').1
  | c :: m, [], h', _, h => by
    have := h c.1
    simp only [read_nil, read_cons, if_true] at this
    exact absurd this ((wf_cons c m).1 h').1
  | c :: m, d :: m', hm, hm', h => by
    obtain ⟨hc, hlt, hwf⟩ := (wf_cons c m).1 hm
    obtain ⟨hd, hlt', hwf'⟩ := (wf_cons d m').1 hm'
    have blankBelow : ∀ {n : Memory} {a b : Nat}, (∀ e ∈ n, a < e.1) → b ≤ a → read n b = blank :=
      fun hn hb => read_of_not_listed fun e he => Nat.ne_of_gt (Nat.lt_of_le_of_lt hb (hn e he))
    have key : c.1 = d.1 := by
      rcases Nat.lt_trichotomy c.1 d.1 with hlt1 | heq | hgt
      · have := h c.1
        rw [read_cons, if_pos rfl, read_cons, if_neg (Nat.ne_of_lt hlt1),
          blankBelow hlt' (Nat.le_of_lt hlt1)] at this
        exact absurd this hc
      · exact heq
      · have := h d.1
        rw [read_cons, if_neg (Nat.ne_of_lt hgt), read_cons, if_pos rfl,
          blankBelow hlt (Nat.le_of_lt hgt)] at this
        exact absurd this.symm hd
    have val : c.2 = d.2 := by
      have := h c.1
      rwa [read_cons, if_pos rfl, read_cons, if_pos key] at this
    have rest : m = m' := by
      refine eq_of_reads hwf hwf' fun k => ?_
      by_cases hk : k ≤ c.1
      · rw [blankBelow hlt hk, blankBelow hlt' (key ▸ hk)]
      · have := h k
        rwa [read_cons, if_neg (by omega), read_cons, if_neg (by omega)] at this
    rw [rest, Prod.ext key val]

end Sys2Proof.Memory
end

