-- ==== Sys2Proof/Laws/Operands.lean ====
section
/-! SUPPORT. The address, byte and word formats in numbers: one lemma for each format of Operands.lean. -/

namespace Sys2Proof.Machine

/-! ### CPU addresses -/

theorem wramIndex_eq (a : Addr) : wramIndex a = a.toNat % 0x800 := by simp [wramIndex]

theorem wramIndex_lt (a : Addr) : wramIndex a < 0x800 := by rw [wramIndex_eq]; omega

theorem romOffset_eq (a : Addr) : romOffset a = a.toNat % 0x8000 := by simp [romOffset]

theorem registerSelect_toNat (a : Addr) : (registerSelect a).toNat = a.toNat % 8 := by simp [registerSelect]

theorem registerSelect_eq_iff (a : Addr) (sel : BitVec 3) : registerSelect a = sel ↔ a.toNat % 8 = sel.toNat := by
  rw [← registerSelect_toNat, BitVec.toNat_inj]

theorem region_workRam {a : Addr} (h : a.toNat < 0x2000) : region a = .workRam := by simp [region, h]

theorem region_ppuWindow {a : Addr} (h : 0x2000 ≤ a.toNat) (h' : a.toNat < 0x4000) : region a = .ppuWindow := by
  simp [region, h', Nat.not_lt.2 h]

theorem region_unimplemented {a : Addr} (h : 0x4000 ≤ a.toNat) (h' : a.toNat < 0x8000) :
    region a = .unimplemented := by
  rw [region, if_neg (by omega), if_neg (by omega), if_pos h']

theorem region_programRom {a : Addr} (h : 0x8000 ≤ a.toNat) : region a = .programRom := by
  rw [region, if_neg (by omega), if_neg (by omega), if_neg (by omega)]

/-- The region of an address by its range (R61). -/
theorem region_cases (a : Addr) :
    (region a = .workRam ∧ a.toNat < 0x2000) ∨
    (region a = .ppuWindow ∧ 0x2000 ≤ a.toNat ∧ a.toNat < 0x4000) ∨
    (region a = .unimplemented ∧ 0x4000 ≤ a.toNat ∧ a.toNat < 0x8000) ∨
    (region a = .programRom ∧ 0x8000 ≤ a.toNat) := by
  rcases Nat.lt_or_ge a.toNat 0x2000 with h | h
  · exact .inl ⟨region_workRam h, h⟩
  rcases Nat.lt_or_ge a.toNat 0x4000 with h1 | h1
  · exact .inr (.inl ⟨region_ppuWindow h h1, h, h1⟩)
  rcases Nat.lt_or_ge a.toNat 0x8000 with h2 | h2
  · exact .inr (.inr (.inl ⟨region_unimplemented h1 h2, h1, h2⟩))
  · exact .inr (.inr (.inr ⟨region_programRom h2, h2⟩))

theorem stackAddr_toNat (sp : Byte) : (stackAddr sp).toNat = 0x100 + sp.toNat := by
  have := sp.isLt
  simp only [stackAddr, BitVec.toNat_append]
  rw [← Nat.shiftLeft_add_eq_or_of_lt this]
  rfl

/-- The stack page lies in work RAM (R72). -/
theorem region_stackAddr (sp : Byte) : region (stackAddr sp) = .workRam :=
  region_workRam (by rw [stackAddr_toNat]; have := sp.isLt; omega)

theorem wramIndex_stackAddr (sp : Byte) : wramIndex (stackAddr sp) = 0x100 + sp.toNat := by
  rw [wramIndex_eq, stackAddr_toNat]; have := sp.isLt; omega

/-! ### Advancing an address (R12 `ADDR_OVERFLOW`) -/

theorem advance_ok {c : Config} {a : Addr} {k : Nat} (h : a.toNat + k ≤ 0xFFFF ∨ c.addrOverflow = .wrap) :
    advance c a k = .ok (a + BitVec.ofNat 16 k) := by
  unfold advance passesTop
  rcases h with h | h
  · rw [if_neg (by simpa using h)]
  · rw [h]; simp

theorem advance_error {c : Config} {a : Addr} {k : Nat} (h : ¬ (a.toNat + k ≤ 0xFFFF ∨ c.addrOverflow = .wrap)) :
    advance c a k = .error (.addrOverflow a) := by
  obtain ⟨h1, h2⟩ := not_or.1 h
  have h3 : c.addrOverflow = .fault := by cases hc : c.addrOverflow <;> simp_all
  unfold advance passesTop
  rw [if_pos (by simpa using h1), h3]

/-! ### Words (R91) -/

theorem joinWord_highByte_lowByte (w : Word) : joinWord (highByte w) (lowByte w) = w := by
  simp only [joinWord, highByte, lowByte]
  exact BitVec.eq_of_getLsbD_eq fun i hi => by
    simp only [BitVec.getLsbD_append, BitVec.getLsbD_extractLsb']
    by_cases h : i < 8
    · simp [h]
    · simp [h, show i - 8 < 8 by omega, show 8 + (i - 8) = i by omega]

theorem joinWord_eq_or (hi lo : Byte) : joinWord hi lo = lo.setWidth 16 ||| (hi.setWidth 16 <<< 8) := by
  refine BitVec.eq_of_getLsbD_eq fun i hi' => ?_
  rw [joinWord, BitVec.getLsbD_append, BitVec.getLsbD_or, BitVec.getLsbD_shiftLeft, BitVec.getLsbD_setWidth,
    BitVec.getLsbD_setWidth]
  by_cases h : i < 8
  · simp [h, show i < 16 by omega]
  · simp [h, show i < 16 by omega, show i - 8 < 16 by omega, BitVec.getLsbD_of_ge lo i (by omega)]

/-! ### OAM addresses (R93) -/

theorem oamEntryOf_val (i : Byte) : (oamEntryOf i).val = i.toNat / 4 := rfl

theorem oamFieldOf_eq_iff (i j : Byte) : oamFieldOf i = oamFieldOf j ↔ i.toNat % 4 = j.toNat % 4 := by
  have hi := Nat.mod_lt i.toNat (show 0 < 4 by omega)
  have hj := Nat.mod_lt j.toNat (show 0 < 4 by omega)
  unfold oamFieldOf
  generalize i.toNat % 4 = x at *
  generalize j.toNat % 4 = y at *
  interval_cases x <;> interval_cases y <;> simp

theorem oamFieldOf_attr_iff (i : Byte) : oamFieldOf i = .attr ↔ i.toNat % 4 = 2 := by
  have hi := Nat.mod_lt i.toNat (show 0 < 4 by omega)
  unfold oamFieldOf
  generalize i.toNat % 4 = x at *
  interval_cases x <;> simp

/-- An OAM byte address is its entry number and its field number (R93). -/
theorem oam_address_ext {i j : Byte} (he : oamEntryOf i = oamEntryOf j) (hf : oamFieldOf i = oamFieldOf j) : i = j := by
  have h1 : i.toNat / 4 = j.toNat / 4 := congrArg Fin.val he
  have h2 := (oamFieldOf_eq_iff i j).1 hf
  exact BitVec.eq_of_toNat_eq (by omega)

/-! ### The attribute byte (R95, R231, R232) -/

/-- R233: packing an unpacked byte masks it by 0xE3. -/
theorem attributeToByte_ofByte (b : Byte) : attributeToByte (attributeOfByte b) = b &&& 0xE3 := by
  revert b; decide

/-- R234: unpacking a packed attribute gives it back. -/
theorem attributeOfByte_toByte (q : SpriteAttribute) : attributeOfByte (attributeToByte q) = q := by
  obtain ⟨v, h, d, p⟩ := q
  revert v h d p; decide

theorem attributeToByte_toNat (q : SpriteAttribute) :
    (attributeToByte q).toNat =
      128 * q.verticalFlip.toNat + 64 * q.horizontalFlip.toNat + 32 * q.hide.toNat + q.palette.toNat := by
  obtain ⟨v, h, d, p⟩ := q
  revert v h d p; decide

/-- Bits 4:2 of a packed attribute are zero (R95). -/
theorem attributeToByte_reserved (q : SpriteAttribute) : attributeToByte q &&& 0x1C = 0 := by
  obtain ⟨v, h, d, p⟩ := q
  revert v h d p; decide

/-! ### Pixels and grids (R97 to R99) -/

theorem pixelOfPlanes_toNat (hi lo : Byte) (x : Nat) :
    (pixelOfPlanes hi lo x).toNat = 2 * (hi.getLsbD (7 - x)).toNat + (lo.getLsbD (7 - x)).toNat := by
  unfold pixelOfPlanes
  cases hi.getLsbD (7 - x) <;> cases lo.getLsbD (7 - x) <;> rfl

theorem gridOf_getElem {α : Type} (f : Nat → Nat → α) {x y : Nat} (hx : x < 8) (hy : y < 8) :
    (gridOf f)[8 * y + x] = f x y := by
  simp only [gridOf, Vector.getElem_ofFn]
  rw [show (8 * y + x) % 8 = x by omega, show (8 * y + x) / 8 = y by omega]

theorem gridCell_eq {α : Type} (g : Vector α 64) {x y : Nat} (hx : x < 8) (hy : y < 8) :
    gridCell g x y = some g[8 * y + x] := by
  rw [gridCell, if_pos ⟨hx, hy⟩, Vector.getElem?_eq_getElem]

theorem gridCell_none {α : Type} (g : Vector α 64) {x y : Nat} (h : 8 ≤ x ∨ 8 ≤ y) : gridCell g x y = none := by
  rw [gridCell, if_neg (by omega)]

end Sys2Proof.Machine
end

