-- ==== Sys2Proof/Laws/State.lean ====
section
/-! SUPPORT. What each update of the state leaves in each field: one lemma a field, true by `rfl`. -/

namespace Sys2Proof.Machine

variable (s : State)

/-! `respond` -/

@[simp] theorem respond_wram (r : Response) : (respond r s).wram = s.wram := rfl
@[simp] theorem respond_pc (r : Response) : (respond r s).pc = s.pc := rfl
@[simp] theorem respond_sp (r : Response) : (respond r s).sp = s.sp := rfl
@[simp] theorem respond_oamAddr (r : Response) : (respond r s).oamAddr = s.oamAddr := rfl
@[simp] theorem respond_oamData (r : Response) : (respond r s).oamData = s.oamData := rfl
@[simp] theorem respond_intent (r : Response) : (respond r s).intent = s.intent := rfl
@[simp] theorem respond_oam (r : Response) : (respond r s).oam = s.oam := rfl
@[simp] theorem respond_fault (r : Response) : (respond r s).fault = s.fault := rfl
@[simp] theorem respond_diag (r : Response) : (respond r s).diag = s.diag := rfl
@[simp] theorem respond_cfg (r : Response) : (respond r s).cfg = s.cfg := rfl
@[simp] theorem respond_inputs (r : Response) : (respond r s).inputs = s.inputs := rfl
@[simp] theorem respond_response (r : Response) : (respond r s).response = some r := rfl
@[simp] theorem respond_extWrites (r : Response) : (respond r s).extWrites = s.extWrites := rfl
@[simp] theorem respond_draws (r : Response) : (respond r s).draws = s.draws := rfl
@[simp] theorem respond_refusalMark (r : Response) : (respond r s).refusalMark = s.refusalMark := rfl

/-! `refuse` -/

@[simp] theorem refuse_wram (op : BitVec 5) : (refuse op s).wram = s.wram := rfl
@[simp] theorem refuse_pc (op : BitVec 5) : (refuse op s).pc = s.pc := rfl
@[simp] theorem refuse_sp (op : BitVec 5) : (refuse op s).sp = s.sp := rfl
@[simp] theorem refuse_oamAddr (op : BitVec 5) : (refuse op s).oamAddr = s.oamAddr := rfl
@[simp] theorem refuse_oamData (op : BitVec 5) : (refuse op s).oamData = s.oamData := rfl
@[simp] theorem refuse_intent (op : BitVec 5) : (refuse op s).intent = s.intent := rfl
@[simp] theorem refuse_oam (op : BitVec 5) : (refuse op s).oam = s.oam := rfl
@[simp] theorem refuse_fault (op : BitVec 5) : (refuse op s).fault = s.fault := rfl
@[simp] theorem refuse_diag (op : BitVec 5) : (refuse op s).diag = s.diag := rfl
@[simp] theorem refuse_cfg (op : BitVec 5) : (refuse op s).cfg = s.cfg := rfl
@[simp] theorem refuse_inputs (op : BitVec 5) : (refuse op s).inputs = s.inputs := rfl
@[simp] theorem refuse_response (op : BitVec 5) : (refuse op s).response = some (.refused op) := rfl
@[simp] theorem refuse_extWrites (op : BitVec 5) : (refuse op s).extWrites = s.extWrites := rfl
@[simp] theorem refuse_draws (op : BitVec 5) : (refuse op s).draws = s.draws := rfl
@[simp] theorem refuse_refusalMark (op : BitVec 5) : (refuse op s).refusalMark = true := rfl

/-! `emitDiag` -/

@[simp] theorem emitDiag_wram (kind : DiagKind) (a : Addr) : (emitDiag kind a s).wram = s.wram := rfl
@[simp] theorem emitDiag_pc (kind : DiagKind) (a : Addr) : (emitDiag kind a s).pc = s.pc := rfl
@[simp] theorem emitDiag_sp (kind : DiagKind) (a : Addr) : (emitDiag kind a s).sp = s.sp := rfl
@[simp] theorem emitDiag_oamAddr (kind : DiagKind) (a : Addr) : (emitDiag kind a s).oamAddr = s.oamAddr := rfl
@[simp] theorem emitDiag_oamData (kind : DiagKind) (a : Addr) : (emitDiag kind a s).oamData = s.oamData := rfl
@[simp] theorem emitDiag_intent (kind : DiagKind) (a : Addr) : (emitDiag kind a s).intent = s.intent := rfl
@[simp] theorem emitDiag_oam (kind : DiagKind) (a : Addr) : (emitDiag kind a s).oam = s.oam := rfl
@[simp] theorem emitDiag_fault (kind : DiagKind) (a : Addr) : (emitDiag kind a s).fault = s.fault := rfl
@[simp] theorem emitDiag_diag (kind : DiagKind) (a : Addr) : (emitDiag kind a s).diag = s.diag ++ [{ kind := kind, addr := a }] := rfl
@[simp] theorem emitDiag_cfg (kind : DiagKind) (a : Addr) : (emitDiag kind a s).cfg = s.cfg := rfl
@[simp] theorem emitDiag_inputs (kind : DiagKind) (a : Addr) : (emitDiag kind a s).inputs = s.inputs := rfl
@[simp] theorem emitDiag_response (kind : DiagKind) (a : Addr) : (emitDiag kind a s).response = s.response := rfl
@[simp] theorem emitDiag_extWrites (kind : DiagKind) (a : Addr) : (emitDiag kind a s).extWrites = s.extWrites := rfl
@[simp] theorem emitDiag_draws (kind : DiagKind) (a : Addr) : (emitDiag kind a s).draws = s.draws := rfl
@[simp] theorem emitDiag_refusalMark (kind : DiagKind) (a : Addr) : (emitDiag kind a s).refusalMark = s.refusalMark := rfl

/-! `drawByte` -/

@[simp] theorem drawByte_wram : (drawByte s).2.wram = s.wram := rfl
@[simp] theorem drawByte_pc : (drawByte s).2.pc = s.pc := rfl
@[simp] theorem drawByte_sp : (drawByte s).2.sp = s.sp := rfl
@[simp] theorem drawByte_oamAddr : (drawByte s).2.oamAddr = s.oamAddr := rfl
@[simp] theorem drawByte_oamData : (drawByte s).2.oamData = s.oamData := rfl
@[simp] theorem drawByte_intent : (drawByte s).2.intent = s.intent := rfl
@[simp] theorem drawByte_oam : (drawByte s).2.oam = s.oam := rfl
@[simp] theorem drawByte_fault : (drawByte s).2.fault = s.fault := rfl
@[simp] theorem drawByte_diag : (drawByte s).2.diag = s.diag := rfl
@[simp] theorem drawByte_cfg : (drawByte s).2.cfg = s.cfg := rfl
@[simp] theorem drawByte_inputs : (drawByte s).2.inputs = s.inputs := rfl
@[simp] theorem drawByte_response : (drawByte s).2.response = s.response := rfl
@[simp] theorem drawByte_extWrites : (drawByte s).2.extWrites = s.extWrites := rfl
@[simp] theorem drawByte_draws : (drawByte s).2.draws = s.draws + 1 := rfl
@[simp] theorem drawByte_refusalMark : (drawByte s).2.refusalMark = s.refusalMark := rfl

/-! `handOut` -/

@[simp] theorem handOut_wram (a : Addr) (v : Byte) : (handOut a v s).wram = s.wram := rfl
@[simp] theorem handOut_pc (a : Addr) (v : Byte) : (handOut a v s).pc = s.pc := rfl
@[simp] theorem handOut_sp (a : Addr) (v : Byte) : (handOut a v s).sp = s.sp := rfl
@[simp] theorem handOut_oamAddr (a : Addr) (v : Byte) : (handOut a v s).oamAddr = s.oamAddr := rfl
@[simp] theorem handOut_oamData (a : Addr) (v : Byte) : (handOut a v s).oamData = s.oamData := rfl
@[simp] theorem handOut_intent (a : Addr) (v : Byte) : (handOut a v s).intent = s.intent := rfl
@[simp] theorem handOut_oam (a : Addr) (v : Byte) : (handOut a v s).oam = s.oam := rfl
@[simp] theorem handOut_fault (a : Addr) (v : Byte) : (handOut a v s).fault = s.fault := rfl
@[simp] theorem handOut_diag (a : Addr) (v : Byte) : (handOut a v s).diag = s.diag := rfl
@[simp] theorem handOut_cfg (a : Addr) (v : Byte) : (handOut a v s).cfg = s.cfg := rfl
@[simp] theorem handOut_inputs (a : Addr) (v : Byte) : (handOut a v s).inputs = s.inputs := rfl
@[simp] theorem handOut_response (a : Addr) (v : Byte) : (handOut a v s).response = s.response := rfl
@[simp] theorem handOut_extWrites (a : Addr) (v : Byte) : (handOut a v s).extWrites = s.extWrites ++ [{ addr := a, value := v }] := rfl
@[simp] theorem handOut_draws (a : Addr) (v : Byte) : (handOut a v s).draws = s.draws := rfl
@[simp] theorem handOut_refusalMark (a : Addr) (v : Byte) : (handOut a v s).refusalMark = s.refusalMark := rfl

/-! `setWram` -/

@[simp] theorem setWram_wram (k : Nat) (v : Byte) : (setWram k v s).wram = s.wram.write k v := rfl
@[simp] theorem setWram_pc (k : Nat) (v : Byte) : (setWram k v s).pc = s.pc := rfl
@[simp] theorem setWram_sp (k : Nat) (v : Byte) : (setWram k v s).sp = s.sp := rfl
@[simp] theorem setWram_oamAddr (k : Nat) (v : Byte) : (setWram k v s).oamAddr = s.oamAddr := rfl
@[simp] theorem setWram_oamData (k : Nat) (v : Byte) : (setWram k v s).oamData = s.oamData := rfl
@[simp] theorem setWram_intent (k : Nat) (v : Byte) : (setWram k v s).intent = s.intent := rfl
@[simp] theorem setWram_oam (k : Nat) (v : Byte) : (setWram k v s).oam = s.oam := rfl
@[simp] theorem setWram_fault (k : Nat) (v : Byte) : (setWram k v s).fault = s.fault := rfl
@[simp] theorem setWram_diag (k : Nat) (v : Byte) : (setWram k v s).diag = s.diag := rfl
@[simp] theorem setWram_cfg (k : Nat) (v : Byte) : (setWram k v s).cfg = s.cfg := rfl
@[simp] theorem setWram_inputs (k : Nat) (v : Byte) : (setWram k v s).inputs = s.inputs := rfl
@[simp] theorem setWram_response (k : Nat) (v : Byte) : (setWram k v s).response = s.response := rfl
@[simp] theorem setWram_extWrites (k : Nat) (v : Byte) : (setWram k v s).extWrites = s.extWrites := rfl
@[simp] theorem setWram_draws (k : Nat) (v : Byte) : (setWram k v s).draws = s.draws := rfl
@[simp] theorem setWram_refusalMark (k : Nat) (v : Byte) : (setWram k v s).refusalMark = s.refusalMark := rfl

/-! `oamSet` -/

@[simp] theorem oamSet_wram (i v : Byte) : (oamSet i v s).wram = s.wram := rfl
@[simp] theorem oamSet_pc (i v : Byte) : (oamSet i v s).pc = s.pc := rfl
@[simp] theorem oamSet_sp (i v : Byte) : (oamSet i v s).sp = s.sp := rfl
@[simp] theorem oamSet_oamAddr (i v : Byte) : (oamSet i v s).oamAddr = s.oamAddr := rfl
@[simp] theorem oamSet_oamData (i v : Byte) : (oamSet i v s).oamData = s.oamData := rfl
@[simp] theorem oamSet_intent (i v : Byte) : (oamSet i v s).intent = s.intent := rfl
@[simp] theorem oamSet_oam (i v : Byte) : (oamSet i v s).oam = s.oam.set (oamEntryOf i) (entryWithByte s.oam[oamEntryOf i] v (oamFieldOf i)) := rfl
@[simp] theorem oamSet_fault (i v : Byte) : (oamSet i v s).fault = s.fault := rfl
@[simp] theorem oamSet_diag (i v : Byte) : (oamSet i v s).diag = s.diag := rfl
@[simp] theorem oamSet_cfg (i v : Byte) : (oamSet i v s).cfg = s.cfg := rfl
@[simp] theorem oamSet_inputs (i v : Byte) : (oamSet i v s).inputs = s.inputs := rfl
@[simp] theorem oamSet_response (i v : Byte) : (oamSet i v s).response = s.response := rfl
@[simp] theorem oamSet_extWrites (i v : Byte) : (oamSet i v s).extWrites = s.extWrites := rfl
@[simp] theorem oamSet_draws (i v : Byte) : (oamSet i v s).draws = s.draws := rfl
@[simp] theorem oamSet_refusalMark (i v : Byte) : (oamSet i v s).refusalMark = s.refusalMark := rfl

/-! `latchOamData` -/

@[simp] theorem latchOamData_wram : (latchOamData s).wram = s.wram := rfl
@[simp] theorem latchOamData_pc : (latchOamData s).pc = s.pc := rfl
@[simp] theorem latchOamData_sp : (latchOamData s).sp = s.sp := rfl
@[simp] theorem latchOamData_oamAddr : (latchOamData s).oamAddr = s.oamAddr := rfl
@[simp] theorem latchOamData_oamData : (latchOamData s).oamData = oamGet s s.oamAddr := rfl
@[simp] theorem latchOamData_intent : (latchOamData s).intent = s.intent := rfl
@[simp] theorem latchOamData_oam : (latchOamData s).oam = s.oam := rfl
@[simp] theorem latchOamData_fault : (latchOamData s).fault = s.fault := rfl
@[simp] theorem latchOamData_diag : (latchOamData s).diag = s.diag := rfl
@[simp] theorem latchOamData_cfg : (latchOamData s).cfg = s.cfg := rfl
@[simp] theorem latchOamData_inputs : (latchOamData s).inputs = s.inputs := rfl
@[simp] theorem latchOamData_response : (latchOamData s).response = s.response := rfl
@[simp] theorem latchOamData_extWrites : (latchOamData s).extWrites = s.extWrites := rfl
@[simp] theorem latchOamData_draws : (latchOamData s).draws = s.draws := rfl
@[simp] theorem latchOamData_refusalMark : (latchOamData s).refusalMark = s.refusalMark := rfl

/-! `takeInput` -/

@[simp] theorem takeInput_wram (rest : List Input) : (takeInput rest s).wram = s.wram := rfl
@[simp] theorem takeInput_pc (rest : List Input) : (takeInput rest s).pc = s.pc := rfl
@[simp] theorem takeInput_sp (rest : List Input) : (takeInput rest s).sp = s.sp := rfl
@[simp] theorem takeInput_oamAddr (rest : List Input) : (takeInput rest s).oamAddr = s.oamAddr := rfl
@[simp] theorem takeInput_oamData (rest : List Input) : (takeInput rest s).oamData = s.oamData := rfl
@[simp] theorem takeInput_intent (rest : List Input) : (takeInput rest s).intent = s.intent := rfl
@[simp] theorem takeInput_oam (rest : List Input) : (takeInput rest s).oam = s.oam := rfl
@[simp] theorem takeInput_fault (rest : List Input) : (takeInput rest s).fault = s.fault := rfl
@[simp] theorem takeInput_diag (rest : List Input) : (takeInput rest s).diag = s.diag := rfl
@[simp] theorem takeInput_cfg (rest : List Input) : (takeInput rest s).cfg = s.cfg := rfl
@[simp] theorem takeInput_inputs (rest : List Input) : (takeInput rest s).inputs = rest := rfl
@[simp] theorem takeInput_response (rest : List Input) : (takeInput rest s).response = s.response := rfl
@[simp] theorem takeInput_extWrites (rest : List Input) : (takeInput rest s).extWrites = s.extWrites := rfl
@[simp] theorem takeInput_draws (rest : List Input) : (takeInput rest s).draws = s.draws := rfl
@[simp] theorem takeInput_refusalMark (rest : List Input) : (takeInput rest s).refusalMark = s.refusalMark := rfl

/-! `externalPcWrite` -/

@[simp] theorem externalPcWrite_wram (v : Addr) : (externalPcWrite v s).wram = s.wram := rfl
@[simp] theorem externalPcWrite_pc (v : Addr) : (externalPcWrite v s).pc = v := rfl
@[simp] theorem externalPcWrite_sp (v : Addr) : (externalPcWrite v s).sp = s.sp := rfl
@[simp] theorem externalPcWrite_oamAddr (v : Addr) : (externalPcWrite v s).oamAddr = s.oamAddr := rfl
@[simp] theorem externalPcWrite_oamData (v : Addr) : (externalPcWrite v s).oamData = s.oamData := rfl
@[simp] theorem externalPcWrite_intent (v : Addr) : (externalPcWrite v s).intent = s.intent := rfl
@[simp] theorem externalPcWrite_oam (v : Addr) : (externalPcWrite v s).oam = s.oam := rfl
@[simp] theorem externalPcWrite_fault (v : Addr) : (externalPcWrite v s).fault = s.fault := rfl
@[simp] theorem externalPcWrite_diag (v : Addr) : (externalPcWrite v s).diag = s.diag := rfl
@[simp] theorem externalPcWrite_cfg (v : Addr) : (externalPcWrite v s).cfg = s.cfg := rfl
@[simp] theorem externalPcWrite_inputs (v : Addr) : (externalPcWrite v s).inputs = s.inputs := rfl
@[simp] theorem externalPcWrite_response (v : Addr) : (externalPcWrite v s).response = s.response := rfl
@[simp] theorem externalPcWrite_extWrites (v : Addr) : (externalPcWrite v s).extWrites = s.extWrites := rfl
@[simp] theorem externalPcWrite_draws (v : Addr) : (externalPcWrite v s).draws = s.draws := rfl
@[simp] theorem externalPcWrite_refusalMark (v : Addr) : (externalPcWrite v s).refusalMark = s.refusalMark := rfl

/-! `externalSWrite` -/

@[simp] theorem externalSWrite_wram (v : Byte) : (externalSWrite v s).wram = s.wram := rfl
@[simp] theorem externalSWrite_pc (v : Byte) : (externalSWrite v s).pc = s.pc := rfl
@[simp] theorem externalSWrite_sp (v : Byte) : (externalSWrite v s).sp = v := rfl
@[simp] theorem externalSWrite_oamAddr (v : Byte) : (externalSWrite v s).oamAddr = s.oamAddr := rfl
@[simp] theorem externalSWrite_oamData (v : Byte) : (externalSWrite v s).oamData = s.oamData := rfl
@[simp] theorem externalSWrite_intent (v : Byte) : (externalSWrite v s).intent = s.intent := rfl
@[simp] theorem externalSWrite_oam (v : Byte) : (externalSWrite v s).oam = s.oam := rfl
@[simp] theorem externalSWrite_fault (v : Byte) : (externalSWrite v s).fault = s.fault := rfl
@[simp] theorem externalSWrite_diag (v : Byte) : (externalSWrite v s).diag = s.diag := rfl
@[simp] theorem externalSWrite_cfg (v : Byte) : (externalSWrite v s).cfg = s.cfg := rfl
@[simp] theorem externalSWrite_inputs (v : Byte) : (externalSWrite v s).inputs = s.inputs := rfl
@[simp] theorem externalSWrite_response (v : Byte) : (externalSWrite v s).response = s.response := rfl
@[simp] theorem externalSWrite_extWrites (v : Byte) : (externalSWrite v s).extWrites = s.extWrites := rfl
@[simp] theorem externalSWrite_draws (v : Byte) : (externalSWrite v s).draws = s.draws := rfl
@[simp] theorem externalSWrite_refusalMark (v : Byte) : (externalSWrite v s).refusalMark = s.refusalMark := rfl

/-! `afterRead` -/

@[simp] theorem afterRead_wram (a : Addr) : (afterRead a s).wram = s.wram := rfl
@[simp] theorem afterRead_pc (a : Addr) : (afterRead a s).pc = s.pc := rfl
@[simp] theorem afterRead_sp (a : Addr) : (afterRead a s).sp = s.sp := rfl
@[simp] theorem afterRead_oamAddr (a : Addr) : (afterRead a s).oamAddr = s.oamAddr := rfl
@[simp] theorem afterRead_oamData (a : Addr) : (afterRead a s).oamData = s.oamData := rfl
@[simp] theorem afterRead_intent (a : Addr) : (afterRead a s).intent = s.intent := rfl
@[simp] theorem afterRead_oam (a : Addr) : (afterRead a s).oam = s.oam := rfl
@[simp] theorem afterRead_fault (a : Addr) : (afterRead a s).fault = s.fault := rfl
@[simp] theorem afterRead_diag (a : Addr) : (afterRead a s).diag = s.diag ++ readDiag a := rfl
@[simp] theorem afterRead_cfg (a : Addr) : (afterRead a s).cfg = s.cfg := rfl
@[simp] theorem afterRead_inputs (a : Addr) : (afterRead a s).inputs = s.inputs := rfl
@[simp] theorem afterRead_response (a : Addr) : (afterRead a s).response = s.response := rfl
@[simp] theorem afterRead_extWrites (a : Addr) : (afterRead a s).extWrites = s.extWrites := rfl
@[simp] theorem afterRead_draws (a : Addr) : (afterRead a s).draws = s.draws + drawsAt s.cfg a := rfl
@[simp] theorem afterRead_refusalMark (a : Addr) : (afterRead a s).refusalMark = s.refusalMark := rfl

/-! `drawByte`'s value -/

@[simp] theorem drawByte_value : (drawByte s).1 = Config.ppuExtRead s.draws := rfl

/-! `raiseFault`: the fields the spec fixes, and the model's ports -/

@[simp] theorem raiseFault_fault (f : FaultRecord) : (raiseFault f s).fault = some f := rfl
@[simp] theorem raiseFault_response (f : FaultRecord) : (raiseFault f s).response = some (.fault f) := rfl
@[simp] theorem raiseFault_cfg (f : FaultRecord) : (raiseFault f s).cfg = s.cfg := rfl
@[simp] theorem raiseFault_inputs (f : FaultRecord) : (raiseFault f s).inputs = s.inputs := rfl
@[simp] theorem raiseFault_extWrites (f : FaultRecord) : (raiseFault f s).extWrites = s.extWrites := rfl
@[simp] theorem raiseFault_draws (f : FaultRecord) : (raiseFault f s).draws = s.draws + 1 := rfl
@[simp] theorem raiseFault_refusalMark (f : FaultRecord) : (raiseFault f s).refusalMark = s.refusalMark := rfl

end Sys2Proof.Machine
end

