-- ==== Sys2Proof/Laws/Ops.lean ====
section
/-! SUPPORT. One specification for each shared operation: what it answers, and what it leaves in every field. -/

namespace Sys2Proof.Machine

variable {s t : State}

/-! ### How a request ends -/

@[simp] theorem serve_ok {α : Type} (s t : State) (r : α → Response) (v : α) :
    serve s r (.ok (v, t)) = .next (respond (r v) t) := rfl

@[simp] theorem serve_error {α : Type} (s : State) (r : α → Response) (f : FaultRecord) :
    serve s r (.error f) = .next (raiseFault f s) := rfl

/-- A request ends in a next state: its result's, or the fault's. -/
theorem serve_eq_next {α : Type} {r : α → Response} {result : Except FaultRecord (α × State)} {u : State}
    (h : serve s r result = .next u) :
    (∃ v t, result = .ok (v, t) ∧ u = respond (r v) t) ∨ (∃ f, result = .error f ∧ u = raiseFault f s) := by
  match result, h with
  | .ok (v, t), h => exact .inl ⟨v, t, rfl, (Host.Outcome.next.inj h).symm⟩
  | .error f, h => exact .inr ⟨f, rfl, (Host.Outcome.next.inj h).symm⟩

@[simp] theorem respond_respond (r q : Response) (s : State) : respond r (respond q s) = respond r s := rfl

/-! ### The object attribute table -/

/-- An OAM read sees the table only. -/
theorem oamGet_congr (h : t.oam = s.oam) (i : Byte) : oamGet t i = oamGet s i := by
  unfold oamGet; rw [h]

/-- The byte kept for `v` at the OAM address `i`: masked by 0xE3 at an attribute byte (R211, R233). -/
def keptByte (i v : Byte) : Byte := if i.toNat % 4 = 2 then v &&& 0xE3 else v

theorem entryByte_entryWithByte_same (e : OamEntry) (i v : Byte) :
    entryByte (entryWithByte e v (oamFieldOf i)) (oamFieldOf i) = keptByte i v := by
  unfold keptByte
  split
  · next h => rw [(oamFieldOf_attr_iff i).2 h]; exact attributeToByte_ofByte v
  · next h =>
    have := mt (oamFieldOf_attr_iff i).1 h
    cases hf : oamFieldOf i <;> simp_all [entryByte, entryWithByte]

theorem entryByte_entryWithByte_other (e : OamEntry) (v : Byte) {f g : OamField} (h : g ≠ f) :
    entryByte (entryWithByte e v f) g = entryByte e g := by
  cases f <;> cases g <;> first | exact absurd rfl h | rfl

/-- R211: what an OAM write leaves at every OAM address. -/
theorem oamGet_oamSet (i v j : Byte) (s : State) :
    oamGet (oamSet i v s) j = if j = i then keptByte j v else oamGet s j := by
  unfold oamGet
  rw [oamSet_oam]
  by_cases he : oamEntryOf j = oamEntryOf i
  · by_cases hf : oamFieldOf j = oamFieldOf i
    · obtain rfl := oam_address_ext he hf
      rw [if_pos rfl]
      simp only [Fin.getElem_fin, Vector.getElem_set_self]
      exact entryByte_entryWithByte_same _ j v
    · rw [if_neg (fun h : j = i => hf (congrArg oamFieldOf h))]
      simp only [he, Fin.getElem_fin, Vector.getElem_set_self]
      exact entryByte_entryWithByte_other _ v hf
  · rw [if_neg (fun h : j = i => he (congrArg oamEntryOf h))]
    simp only [Fin.getElem_fin]
    rw [Vector.getElem_set_ne _ _ (fun h => he (Fin.ext h.symm))]

/-- R214 in one update: commit at the old address, advance, refresh at the new one. -/
theorem commitOamData_eq (s : State) :
    commitOamData s = { s with
      oam := (oamSet s.oamAddr s.oamData s).oam
      oamAddr := s.oamAddr + 1
      oamData := oamGet (oamSet s.oamAddr s.oamData s) (s.oamAddr + 1) } := rfl

/-! `syncOam` by intent (R212 to R215) -/

theorem syncOam_writeOamAddr (h : s.intent = .writeOamAddr) :
    syncOam s = { s with oamData := oamGet s s.oamAddr, intent := .idle } := by
  unfold syncOam; rw [h]; rfl

theorem syncOam_writeOamData (h : s.intent = .writeOamData) :
    syncOam s = { s with
      oam := (oamSet s.oamAddr s.oamData s).oam
      oamAddr := s.oamAddr + 1
      oamData := oamGet (oamSet s.oamAddr s.oamData s) (s.oamAddr + 1)
      intent := .idle } := by
  unfold syncOam; rw [h]; rfl

theorem syncOam_otherwise (h : s.intent = .idle ∨ s.intent = .reserved) : syncOam s = { s with intent := .idle } := by
  unfold syncOam; rcases h with h | h <;> rw [h]

/-- What the sync can change: OAM, the two latches and `intent`, which it leaves `Idle`. -/
theorem syncOam_frame (s : State) :
    syncOam s = { s with oam := (syncOam s).oam, oamAddr := (syncOam s).oamAddr, oamData := (syncOam s).oamData,
                         intent := .idle } := by
  cases h : s.intent
  · rw [syncOam_otherwise (.inl h)]
  · rw [syncOam_writeOamAddr h]
  · rw [syncOam_writeOamData h]
  · rw [syncOam_otherwise (.inr h)]

/-! ### The PPU register window -/

theorem ppuRegRead_data {a : Addr} (h : a.toNat % 8 = s.cfg.oamDataSel.toNat) : ppuRegRead a s = (s.oamData, s) := by
  rw [ppuRegRead, if_pos ((registerSelect_eq_iff a _).2 h)]

theorem ppuRegRead_other {a : Addr} (h : a.toNat % 8 ≠ s.cfg.oamDataSel.toNat) : ppuRegRead a s = drawByte s := by
  rw [ppuRegRead, if_neg (mt (registerSelect_eq_iff a _).1 h)]

/-- R242. -/
theorem ppuRegWrite_address {a : Addr} (v : Byte) (h : a.toNat % 8 = s.cfg.oamAddrSel.toNat) :
    ppuRegWrite a v s = { s with oamAddr := v, oamData := oamGet s v, intent := .idle } := by
  rw [ppuRegWrite, if_pos ((registerSelect_eq_iff a _).2 h), syncOam_writeOamAddr rfl]
  rfl

/-- R243. -/
theorem ppuRegWrite_data {a : Addr} (v : Byte) (h : a.toNat % 8 ≠ s.cfg.oamAddrSel.toNat)
    (h' : a.toNat % 8 = s.cfg.oamDataSel.toNat) :
    ppuRegWrite a v s = { s with
      oam := (oamSet s.oamAddr v s).oam
      oamAddr := s.oamAddr + 1
      oamData := oamGet (oamSet s.oamAddr v s) (s.oamAddr + 1)
      intent := .idle } := by
  rw [ppuRegWrite, if_neg (mt (registerSelect_eq_iff a _).1 h), if_pos ((registerSelect_eq_iff a _).2 h'),
    syncOam_writeOamData rfl]
  rfl

/-- R245. -/
theorem ppuRegWrite_other {a : Addr} (v : Byte) (h : a.toNat % 8 ≠ s.cfg.oamAddrSel.toNat)
    (h' : a.toNat % 8 ≠ s.cfg.oamDataSel.toNat) : ppuRegWrite a v s = handOut a v s := by
  rw [ppuRegWrite, if_neg (mt (registerSelect_eq_iff a _).1 h), if_neg (mt (registerSelect_eq_iff a _).1 h')]

/-- What a write in the window can change: OAM, the latches, `intent`, and what is handed out. -/
theorem ppuRegWrite_frame (a : Addr) (v : Byte) (s : State) :
    ppuRegWrite a v s = { s with
      oam := (ppuRegWrite a v s).oam, oamAddr := (ppuRegWrite a v s).oamAddr,
      oamData := (ppuRegWrite a v s).oamData, intent := (ppuRegWrite a v s).intent,
      extWrites := (ppuRegWrite a v s).extWrites } := by
  by_cases h : a.toNat % 8 = s.cfg.oamAddrSel.toNat
  · rw [ppuRegWrite_address v h]
  · by_cases h' : a.toNat % 8 = s.cfg.oamDataSel.toNat
    · rw [ppuRegWrite_data v h h']
    · rw [ppuRegWrite_other v h h']; rfl

theorem ppuRegWrite_intent {a : Addr} {v : Byte} (h : s.intent = .idle) : (ppuRegWrite a v s).intent = .idle := by
  by_cases h1 : a.toNat % 8 = s.cfg.oamAddrSel.toNat
  · rw [ppuRegWrite_address v h1]
  · by_cases h2 : a.toNat % 8 = s.cfg.oamDataSel.toNat
    · rw [ppuRegWrite_data v h1 h2]
    · rw [ppuRegWrite_other v h1 h2]; exact h

/-! ### Reading a byte (R62) -/

/-- A read that does not fault answers what its region holds and leaves `afterRead`. -/
theorem memRead_ok {a : Addr} (h : Readable s.cfg a) : memRead a s = .ok (seenByte s a s.draws, afterRead a s) := by
  rcases region_cases a with ⟨hr, h1⟩ | ⟨hr, h1, h2⟩ | ⟨hr, h1, h2⟩ | ⟨hr, h1⟩
  · have e : afterRead a s = s := by
      unfold afterRead readDiag drawsAt; rw [if_neg (by omega), if_neg (by omega)]; simp
    simp only [memRead, hr, e, seenByte, if_pos h1, wramIndex_eq]
  · have e : readDiag a = [] := by rw [readDiag, if_neg (by omega)]
    by_cases hd : a.toNat % 8 = s.cfg.oamDataSel.toNat
    · simp [memRead, hr, ppuRegRead_data hd, afterRead, drawsAt, e, seenByte, hd, h2, Nat.not_lt.2 h1]
    · simp [memRead, hr, ppuRegRead_other hd, afterRead, drawsAt, e, seenByte, hd, h1, h2, Nat.not_lt.2 h1, drawByte]
  · have e : drawsAt s.cfg a = 0 := by rw [drawsAt, if_neg (by omega)]
    simp only [memRead, hr, emitDiag, afterRead, e, readDiag, if_pos (And.intro h1 h2), seenByte,
      if_neg (show ¬ a.toNat < 0x2000 by omega), if_neg (show ¬ a.toNat < 0x4000 by omega), if_pos h2, Nat.add_zero]
  · have e : afterRead a s = s := by
      unfold afterRead readDiag drawsAt; rw [if_neg (by omega), if_neg (by omega)]; simp
    have ho : romOffset a = a.toNat - 0x8000 := by rw [romOffset_eq]; have := a.isLt; omega
    have hv : romRead s.cfg a = .ok (s.cfg.rom.cells.read ((a.toNat - 0x8000) % s.cfg.rom.size)) := by
      simp only [romRead, ho]
      split
      · next hlt => rw [Nat.mod_eq_of_lt hlt]
      · next hlt => rw [(h.resolve_left (by omega)).resolve_left hlt]
    simp only [memRead, hr, e, hv, seenByte, if_neg (show ¬ a.toNat < 0x2000 by omega),
      if_neg (show ¬ a.toNat < 0x4000 by omega), if_neg (show ¬ a.toNat < 0x8000 by omega)]
    rfl

/-- A read that faults raises `ROM_RANGE_FAULT`. -/
theorem memRead_error {a : Addr} (h : ¬ Readable s.cfg a) : memRead a s = .error (.romRange a) := by
  obtain ⟨h1, h2⟩ := not_or.1 h
  obtain ⟨h2, h3⟩ := not_or.1 h2
  have h4 : s.cfg.romRange = .fault := by cases hc : s.cfg.romRange <;> simp_all
  have ho : romOffset a = a.toNat - 0x8000 := by rw [romOffset_eq]; have := a.isLt; omega
  simp only [memRead, region_programRom (Nat.not_lt.1 h1), romRead, ho, if_neg h2, h4]
  rfl

theorem afterRead_workRam {a : Addr} (h : a.toNat < 0x2000) (s : State) : afterRead a s = s := by
  unfold afterRead readDiag drawsAt; rw [if_neg (by omega), if_neg (by omega)]; simp

theorem seenByte_workRam {a : Addr} (h : a.toNat < 0x2000) (s : State) (d : Nat) :
    seenByte s a d = s.wram.read (a.toNat % 0x800) := by rw [seenByte, if_pos h]

/-- A read of work RAM answers the cell and changes nothing. -/
theorem memRead_workRam {a : Addr} (h : a.toNat < 0x2000) (s : State) :
    memRead a s = .ok (s.wram.read (wramIndex a), s) := by
  simp only [memRead, region_workRam h]

@[simp] theorem seenByte_afterRead (s : State) (a b : Addr) (d : Nat) :
    seenByte (afterRead a s) b d = seenByte s b d := rfl

/-! ### Writing a byte (R63) -/

theorem memWrite_workRam {a : Addr} (h : a.toNat < 0x2000) (v : Byte) (s : State) :
    memWrite a v s = setWram (wramIndex a) v s := by simp only [memWrite, region_workRam h]

theorem memWrite_ppuWindow {a : Addr} (h : 0x2000 ≤ a.toNat) (h' : a.toNat < 0x4000) (v : Byte) (s : State) :
    memWrite a v s = ppuRegWrite a v s := by simp only [memWrite, region_ppuWindow h h']

theorem memWrite_unimplemented {a : Addr} (h : 0x4000 ≤ a.toNat) (h' : a.toNat < 0x8000) (v : Byte) (s : State) :
    memWrite a v s = emitDiag .unmappedWrite a s := by simp only [memWrite, region_unimplemented h h']

theorem memWrite_programRom {a : Addr} (h : 0x8000 ≤ a.toNat) (v : Byte) (s : State) :
    memWrite a v s = emitDiag .romWrite a s := by simp only [memWrite, region_programRom h]

/-- What a byte write can change: work RAM, the OAM registers and table, what is handed out, the diagnostics. -/
theorem memWrite_frame (a : Addr) (v : Byte) (s : State) :
    memWrite a v s = { s with
      wram := (memWrite a v s).wram, oam := (memWrite a v s).oam, oamAddr := (memWrite a v s).oamAddr,
      oamData := (memWrite a v s).oamData, intent := (memWrite a v s).intent,
      extWrites := (memWrite a v s).extWrites, diag := (memWrite a v s).diag } := by
  rcases region_cases a with ⟨-, h⟩ | ⟨-, h, h'⟩ | ⟨-, h, h'⟩ | ⟨-, h⟩
  · rw [memWrite_workRam h]; rfl
  · rw [memWrite_ppuWindow h h']; exact (ppuRegWrite_frame a v s).trans (by rw [ppuRegWrite_frame a v s])
  · rw [memWrite_unimplemented h h']; rfl
  · rw [memWrite_programRom h]; rfl

@[simp] theorem memWrite_pc (a : Addr) (v : Byte) (s : State) : (memWrite a v s).pc = s.pc := by rw [memWrite_frame]
@[simp] theorem memWrite_sp (a : Addr) (v : Byte) (s : State) : (memWrite a v s).sp = s.sp := by rw [memWrite_frame]
@[simp] theorem memWrite_fault (a : Addr) (v : Byte) (s : State) : (memWrite a v s).fault = s.fault := by
  rw [memWrite_frame]
@[simp] theorem memWrite_cfg (a : Addr) (v : Byte) (s : State) : (memWrite a v s).cfg = s.cfg := by
  rw [memWrite_frame]
@[simp] theorem memWrite_inputs (a : Addr) (v : Byte) (s : State) : (memWrite a v s).inputs = s.inputs := by
  rw [memWrite_frame]
@[simp] theorem memWrite_response (a : Addr) (v : Byte) (s : State) : (memWrite a v s).response = s.response := by
  rw [memWrite_frame]
@[simp] theorem memWrite_draws (a : Addr) (v : Byte) (s : State) : (memWrite a v s).draws = s.draws := by
  rw [memWrite_frame]
@[simp] theorem memWrite_refusalMark (a : Addr) (v : Byte) (s : State) :
    (memWrite a v s).refusalMark = s.refusalMark := by rw [memWrite_frame]

/-- A byte write does not read the response. -/
theorem memWrite_respond (a : Addr) (v : Byte) (r : Response) (s : State) :
    memWrite a v (respond r s) = respond r (memWrite a v s) := by
  rcases region_cases a with ⟨-, h⟩ | ⟨-, h, h'⟩ | ⟨-, h, h'⟩ | ⟨-, h⟩
  · rw [memWrite_workRam h, memWrite_workRam h]; rfl
  · rw [memWrite_ppuWindow h h', memWrite_ppuWindow h h']
    by_cases h1 : a.toNat % 8 = s.cfg.oamAddrSel.toNat
    · rw [ppuRegWrite_address v h1, ppuRegWrite_address (s := respond r s) v h1]; rfl
    · by_cases h2 : a.toNat % 8 = s.cfg.oamDataSel.toNat
      · rw [ppuRegWrite_data v h1 h2, ppuRegWrite_data (s := respond r s) v h1 h2]; rfl
      · rw [ppuRegWrite_other v h1 h2, ppuRegWrite_other (s := respond r s) v h1 h2]; rfl
  · rw [memWrite_unimplemented h h', memWrite_unimplemented h h']; rfl
  · rw [memWrite_programRom h, memWrite_programRom h]; rfl

/-- The memory a byte write leaves: the selected cell written in work RAM, and otherwise as before. -/
theorem memWrite_wram (a : Addr) (v : Byte) (s : State) :
    (memWrite a v s).wram = if a.toNat < 0x2000 then s.wram.write (wramIndex a) v else s.wram := by
  rcases region_cases a with ⟨-, h⟩ | ⟨-, h, h'⟩ | ⟨-, h, h'⟩ | ⟨-, h⟩
  · rw [memWrite_workRam h, if_pos h]; rfl
  · rw [memWrite_ppuWindow h h', if_neg (by omega), ppuRegWrite_frame]
  · rw [memWrite_unimplemented h h', if_neg (by omega)]; rfl
  · rw [memWrite_programRom h, if_neg (by omega)]; rfl

theorem memWrite_wram_wf (a : Addr) (v : Byte) (h : s.wram.wf = true) : (memWrite a v s).wram.wf = true := by
  rw [memWrite_wram]; split
  · exact Memory.wf_write h _ _
  · exact h

theorem memWrite_wram_within (a : Addr) (v : Byte) (h : s.wram.within 0x800 = true) :
    (memWrite a v s).wram.within 0x800 = true := by
  rw [memWrite_wram]; split
  · exact Memory.within_write h (wramIndex_lt a) v
  · exact h

/-- A byte write leaves `intent` as `Idle` as it found it. -/
theorem memWrite_intent (a : Addr) (v : Byte) (h : s.intent = .idle) : (memWrite a v s).intent = .idle := by
  rcases region_cases a with ⟨-, h1⟩ | ⟨-, h1, h2⟩ | ⟨-, h1, h2⟩ | ⟨-, h1⟩
  · rw [memWrite_workRam h1]; exact h
  · rw [memWrite_ppuWindow h1 h2]; exact ppuRegWrite_intent h
  · rw [memWrite_unimplemented h1 h2]; exact h
  · rw [memWrite_programRom h1]; exact h

/-- The diagnostics a byte write emits (R63, R310). -/
def writeDiag (a : Addr) : List DiagEvent :=
  if 0x8000 ≤ a.toNat then [{ kind := .romWrite, addr := a }]
  else if 0x4000 ≤ a.toNat then [{ kind := .unmappedWrite, addr := a }] else []

theorem memWrite_diag (a : Addr) (v : Byte) (s : State) : (memWrite a v s).diag = s.diag ++ writeDiag a := by
  unfold writeDiag
  rcases region_cases a with ⟨-, h⟩ | ⟨-, h, h'⟩ | ⟨-, h, h'⟩ | ⟨-, h⟩
  · rw [memWrite_workRam h, if_neg (by omega), if_neg (by omega)]; simp
  · rw [memWrite_ppuWindow h h', if_neg (by omega), if_neg (by omega), ppuRegWrite_frame]; simp
  · rw [memWrite_unimplemented h h', if_neg (by omega), if_pos h]; simp
  · rw [memWrite_programRom h, if_pos h]; simp

/-- A byte write outside the PPU window leaves OAM, the latches and `intent` alone. -/
theorem memWrite_oam_frame {a : Addr} (v : Byte) (h : ¬ (0x2000 ≤ a.toNat ∧ a.toNat < 0x4000)) :
    (memWrite a v s).oam = s.oam ∧ (memWrite a v s).oamAddr = s.oamAddr ∧ (memWrite a v s).oamData = s.oamData ∧
      (memWrite a v s).intent = s.intent := by
  rcases region_cases a with ⟨-, h1⟩ | ⟨-, h1, h2⟩ | ⟨-, h1, h2⟩ | ⟨-, h1⟩
  · rw [memWrite_workRam h1]; simp
  · exact absurd ⟨h1, h2⟩ h
  · rw [memWrite_unimplemented h1 h2]; simp
  · rw [memWrite_programRom h1]; simp

/-! ### Words (R121, R126) -/

theorem readWord_ok {a : Addr} (h : Readable s.cfg a) (h1 : Advances s.cfg a 1) (h2 : Readable s.cfg (a + 1)) :
    readWord a s = .ok (joinWord (seenByte s (a + 1) (s.draws + drawsAt s.cfg a)) (seenByte s a s.draws),
      afterRead (a + 1) (afterRead a s)) := by
  have e : memRead (a + 1) (afterRead a s) = .ok (seenByte s (a + 1) (s.draws + drawsAt s.cfg a),
      afterRead (a + 1) (afterRead a s)) := memRead_ok (s := afterRead a s) h2
  simp only [readWord, memRead_ok h, advance_ok h1, bind, Except.bind]
  rw [show BitVec.ofNat 16 1 = (1 : Addr) from rfl, e]
  rfl

theorem readWord_low_error {a : Addr} (h : ¬ Readable s.cfg a) : readWord a s = .error (.romRange a) := by
  simp only [readWord, memRead_error h, bind, Except.bind]

theorem readWord_advance_error {a : Addr} (h : Readable s.cfg a) (h1 : ¬ Advances s.cfg a 1) :
    readWord a s = .error (.addrOverflow a) := by
  simp only [readWord, memRead_ok h, advance_error h1, bind, Except.bind]

theorem readWord_high_error {a : Addr} (h : Readable s.cfg a) (h1 : Advances s.cfg a 1)
    (h2 : ¬ Readable s.cfg (a + 1)) : readWord a s = .error (.romRange (a + 1)) := by
  have e : memRead (a + 1) (afterRead a s) = .error (.romRange (a + 1)) := memRead_error (s := afterRead a s) h2
  simp only [readWord, memRead_ok h, advance_ok h1, bind, Except.bind]
  rw [show BitVec.ofNat 16 1 = (1 : Addr) from rfl, e]

theorem writeWord_sameAddress (a : Addr) (w : Word) (h : s.cfg.setWordMode = .sameAddress) :
    writeWord a w s = .ok ((), memWrite a (highByte w) (memWrite a (lowByte w) s)) := by
  simp only [writeWord, h]

theorem writeWord_split {a : Addr} (w : Word) (h : s.cfg.setWordMode = .split) (h1 : Advances s.cfg a 1) :
    writeWord a w s = .ok ((), memWrite (a + 1) (highByte w) (memWrite a (lowByte w) s)) := by
  simp only [writeWord, h, advance_ok h1]; rfl

theorem writeWord_split_error {a : Addr} (w : Word) (h : s.cfg.setWordMode = .split) (h1 : ¬ Advances s.cfg a 1) :
    writeWord a w s = .error (.addrOverflow a) := by
  simp only [writeWord, h, advance_error h1]; rfl

/-! ### The stack (R140, R142) -/

theorem pushStack_eq (v : Byte) (s : State) :
    pushStack v s = { s with wram := s.wram.write (0x100 + s.sp.toNat) v, sp := s.sp - 1 } := by
  have h : (stackAddr s.sp).toNat < 0x2000 := by rw [stackAddr_toNat]; have := s.sp.isLt; omega
  unfold pushStack
  rw [memWrite_workRam h, wramIndex_stackAddr]
  rfl

theorem popStack_eq (s : State) :
    popStack s = .ok (s.wram.read (0x100 + (s.sp.toNat + 1) % 256), { s with sp := s.sp + 1 }) := by
  have h : (stackAddr (s.sp + 1)).toNat < 0x2000 := by rw [stackAddr_toNat]; have := (s.sp + 1).isLt; omega
  unfold popStack
  rw [memRead_workRam h, wramIndex_stackAddr, BitVec.toNat_add]
  rfl

end Sys2Proof.Machine
end

