-- ==== Sys2Proof/Laws/Exec.lean ====
section
/-! SUPPORT. What each operation of `exec` answers, as an equation over the shared operations' specifications, and what
every operation leaves alone. -/

namespace Sys2Proof.Machine

variable {s t : State}

/-! ### Bus -/

theorem exec_getByte_ok {a : Addr} (h : Readable s.cfg a) :
    exec (.getByte a) s = .next (respond (.byte (seenByte s a s.draws)) (afterRead a s)) := by
  simp only [exec, execGetByte, memRead_ok h, serve_ok]

theorem exec_getByte_error {a : Addr} (h : ¬ Readable s.cfg a) :
    exec (.getByte a) s = .next (raiseFault (.romRange a) s) := by
  simp only [exec, execGetByte, memRead_error h, serve_error]

theorem exec_getWord_of_readWord {a : Addr} {w : Word} {u : State} (h : readWord a s = .ok (w, u)) :
    exec (.getWord a) s = .next (respond (.word w) u) := by
  simp only [exec, execGetWord, h, serve_ok]

theorem exec_getWord_of_error {a : Addr} {f : FaultRecord} (h : readWord a s = .error f) :
    exec (.getWord a) s = .next (raiseFault f s) := by
  simp only [exec, execGetWord, h, serve_error]

/-- A word read ends in one of four ways (R121, R330). -/
theorem readWord_cases (a : Addr) (s : State) :
    (∃ w, readWord a s = .ok (w, afterRead (a + 1) (afterRead a s)) ∧
      Readable s.cfg a ∧ Advances s.cfg a 1 ∧ Readable s.cfg (a + 1)) ∨
    (readWord a s = .error (.romRange a) ∧ ¬ Readable s.cfg a) ∨
    (readWord a s = .error (.addrOverflow a) ∧ ¬ Advances s.cfg a 1) ∨
    (readWord a s = .error (.romRange (a + 1)) ∧ ¬ Readable s.cfg (a + 1)) := by
  by_cases h : Readable s.cfg a
  · by_cases h1 : Advances s.cfg a 1
    · by_cases h2 : Readable s.cfg (a + 1)
      · exact .inl ⟨_, readWord_ok h h1 h2, h, h1, h2⟩
      · exact .inr (.inr (.inr ⟨readWord_high_error h h1 h2, h2⟩))
    · exact .inr (.inr (.inl ⟨readWord_advance_error h h1, h1⟩))
  · exact .inr (.inl ⟨readWord_low_error h, h⟩)

theorem exec_setByte (a : Addr) (v : Byte) (s : State) :
    exec (.setByte a v) s = .next (respond .done (memWrite a v s)) := rfl

theorem exec_setWord_sameAddress (a : Addr) (w : Word) (h : s.cfg.setWordMode = .sameAddress) :
    exec (.setWord a w) s = .next (respond .done (memWrite a (highByte w) (memWrite a (lowByte w) s))) := by
  simp only [exec, execSetWord, writeWord_sameAddress a w h, serve_ok]

theorem exec_setWord_split {a : Addr} (w : Word) (h : s.cfg.setWordMode = .split) (h1 : Advances s.cfg a 1) :
    exec (.setWord a w) s = .next (respond .done (memWrite (a + 1) (highByte w) (memWrite a (lowByte w) s))) := by
  simp only [exec, execSetWord, writeWord_split w h h1, serve_ok]

theorem exec_setWord_split_error {a : Addr} (w : Word) (h : s.cfg.setWordMode = .split)
    (h1 : ¬ Advances s.cfg a 1) : exec (.setWord a w) s = .next (raiseFault (.addrOverflow a) s) := by
  simp only [exec, execSetWord, writeWord_split_error w h h1, serve_error]

/-! ### Stack -/

theorem exec_pushByte (v : Byte) (s : State) : exec (.pushByte v) s = .next { s with
    wram := s.wram.write (0x100 + s.sp.toNat) v, sp := s.sp - 1, response := some .done } := by
  simp only [exec, execPushByte, pushStack_eq]; rfl

theorem exec_pushWord (w : Word) (s : State) : exec (.pushWord w) s = .next { s with
    wram := (s.wram.write (0x100 + s.sp.toNat) (highByte w)).write (0x100 + (s.sp - 1).toNat) (lowByte w)
    sp := s.sp - 1 - 1, response := some .done } := by
  simp only [exec, execPushWord, pushStack_eq]; rfl

theorem exec_popByte (s : State) : exec .popByte s = .next { s with
    sp := s.sp + 1, response := some (.byte (s.wram.read (0x100 + (s.sp.toNat + 1) % 256))) } := by
  simp only [exec, execPopByte, popStack_eq, serve_ok]; rfl

theorem exec_popWord (s : State) : exec .popWord s = .next { s with
    sp := s.sp + 1 + 1
    response := some (.word (joinWord (s.wram.read (0x100 + ((s.sp + 1).toNat + 1) % 256))
      (s.wram.read (0x100 + (s.sp.toNat + 1) % 256)))) } := by
  simp only [exec, execPopWord, popWordStack, popStack_eq, bind, Except.bind]; rfl

/-! ### Fetch -/

theorem exec_incrementByte_ok (h : Readable s.cfg s.pc) (h1 : Advances s.cfg s.pc 1) :
    exec .incrementByte s = .next { afterRead s.pc s with
      pc := s.pc + 1, response := some (.byte (seenByte s s.pc s.draws)) } := by
  simp only [exec, execIncrementByte, fetchByte, memRead_ok h, advance_ok h1, bind, Except.bind]; rfl

theorem exec_incrementByte_read_error (h : ¬ Readable s.cfg s.pc) :
    exec .incrementByte s = .next (raiseFault (.romRange s.pc) s) := by
  simp only [exec, execIncrementByte, fetchByte, memRead_error h, bind, Except.bind, serve_error]

theorem exec_incrementByte_advance_error (h : Readable s.cfg s.pc) (h1 : ¬ Advances s.cfg s.pc 1) :
    exec .incrementByte s = .next (raiseFault (.addrOverflow s.pc) s) := by
  simp only [exec, execIncrementByte, fetchByte, memRead_ok h, advance_error h1, bind, Except.bind, serve_error]

theorem exec_incrementWord_ok {w : Word} {u : State} (h : readWord s.pc s = .ok (w, u))
    (h1 : Advances s.cfg s.pc 2) :
    exec .incrementWord s = .next (respond (.word w) { u with pc := s.pc + 2 }) := by
  simp only [exec, execIncrementWord, fetchWord, h, advance_ok h1, bind, Except.bind]; rfl

theorem exec_incrementWord_read_error {f : FaultRecord} (h : readWord s.pc s = .error f) :
    exec .incrementWord s = .next (raiseFault f s) := by
  simp only [exec, execIncrementWord, fetchWord, h, bind, Except.bind, serve_error]

theorem exec_incrementWord_advance_error {w : Word} {u : State} (h : readWord s.pc s = .ok (w, u))
    (h1 : ¬ Advances s.cfg s.pc 2) : exec .incrementWord s = .next (raiseFault (.addrOverflow s.pc) s) := by
  simp only [exec, execIncrementWord, fetchWord, h, advance_error h1, bind, Except.bind, serve_error]

/-! ### OAM and the codec -/

theorem exec_oamRead (i : Byte) (s : State) : exec (.oamRead i) s = .next (respond (.byte (oamGet s i)) s) := rfl

theorem exec_oamWrite (i v : Byte) (s : State) : exec (.oamWrite i v) s = .next (respond .done (oamSet i v s)) := rfl

theorem exec_oamSync (s : State) : exec .oamSync s = .next (respond .done (syncOam s)) := rfl

theorem exec_attrDecode (b : Byte) (s : State) :
    exec (.attrDecode b) s = .next (respond (.attr (attributeOfByte b)) s) := rfl

theorem exec_attrEncode (q : SpriteAttribute) (s : State) :
    exec (.attrEncode q) s = .next (respond (.byte (attributeToByte q)) s) := rfl

/-! ### Tiles and colours -/

theorem exec_tileDecode_ok {n : Nat} (h : 16 * n + 16 ≤ s.cfg.tileMem.size) :
    exec (.tileDecode n) s = .next (respond (.tile (gridOf fun x y => pixelOfPlanes
      (s.cfg.tileMem.cells.read (16 * n + y + 8)) (s.cfg.tileMem.cells.read (16 * n + y)) x)) s) := by
  simp only [exec, execTileDecode, decodeTile, if_neg (Nat.not_lt.2 h)]; rfl

theorem exec_tileDecode_error {n : Nat} (h : s.cfg.tileMem.size < 16 * n + 16) :
    exec (.tileDecode n) s = .next (raiseFault (.tileIndex n) s) := by
  simp only [exec, execTileDecode, decodeTile, if_pos h]; rfl

theorem exec_tileGet_ok (T : Tile) {x y : Nat} (hx : x < 8) (hy : y < 8) :
    exec (.tileGet T x y) s = .next (respond (.pixel T[8 * y + x]) s) := by
  simp only [exec, execTileGet, cellAt, gridCell_eq T hx hy]; rfl

theorem exec_tileGet_error (T : Tile) {x y : Nat} (h : 8 ≤ x ∨ 8 ≤ y) :
    exec (.tileGet T x y) s = .next (raiseFault (.tileCoord x y) s) := by
  simp only [exec, execTileGet, cellAt, gridCell_none T h]; rfl

theorem exec_coloredGet_ok (C : ColoredTile) {x y : Nat} (hx : x < 8) (hy : y < 8) :
    exec (.coloredGet C x y) s = .next (respond (.colour C[8 * y + x]) s) := by
  simp only [exec, execColoredGet, cellAt, gridCell_eq C hx hy]; rfl

theorem exec_coloredGet_error (C : ColoredTile) {x y : Nat} (h : 8 ≤ x ∨ 8 ≤ y) :
    exec (.coloredGet C x y) s = .next (raiseFault (.tileCoord x y) s) := by
  simp only [exec, execColoredGet, cellAt, gridCell_none C h]; rfl

theorem masterColor_ok (p : Vector Colour 64) {i : Byte} (h : i.toNat < 64) :
    masterColor p i = .ok p[i.toNat] := by
  simp only [masterColor, Vector.getElem?_eq_getElem h]

theorem masterColor_error (p : Vector Colour 64) {i : Byte} (h : 64 ≤ i.toNat) :
    masterColor p i = .error (.paletteIndex i) := by
  simp only [masterColor, Vector.getElem?_eq_none h]

/-- Every entry legal: the four colours (R190, R191). -/
theorem resolvePalette_ok (p : Vector Colour 64) (pal : PaletteSelection) (h : ∀ k : Fin 4, pal[k].toNat < 64) :
    ∃ col : Vector Colour 4, resolvePalette p pal = .ok col ∧ ∀ k : Fin 4, p[pal[k].toNat]? = some col[k] := by
  have h0 : pal[0].toNat < 64 := h 0
  have h1 : pal[1].toNat < 64 := h 1
  have h2 : pal[2].toNat < 64 := h 2
  have h3 : pal[3].toNat < 64 := h 3
  refine ⟨#v[p[pal[0].toNat], p[pal[1].toNat], p[pal[2].toNat], p[pal[3].toNat]], ?_, fun k => ?_⟩
  · simp only [resolvePalette, masterColor_ok p h0, masterColor_ok p h1, masterColor_ok p h2, masterColor_ok p h3,
      bind, Except.bind]; rfl
  · rw [Vector.getElem?_eq_getElem (h k)]
    fin_cases k <;> rfl

/-- A bad entry, every lower one legal: the fault names it (R192, R330). -/
theorem resolvePalette_error (p : Vector Colour 64) (pal : PaletteSelection) (k : Fin 4) (h : 64 ≤ pal[k].toNat)
    (hl : ∀ j : Fin 4, j < k → pal[j].toNat < 64) : resolvePalette p pal = .error (.paletteIndex pal[k]) := by
  have low : ∀ j : Fin 4, j < k → ∃ col, masterColor p pal[j] = .ok col :=
    fun j hj => ⟨_, masterColor_ok p (hl j hj)⟩
  have bad := masterColor_error p h
  fin_cases k
  · simp only [resolvePalette, bind, Except.bind]; rw [show masterColor p pal[0] = _ from bad]
  · obtain ⟨c0, h0⟩ := low 0 (by decide)
    simp only [resolvePalette, bind, Except.bind]
    rw [show masterColor p pal[0] = _ from h0, show masterColor p pal[1] = _ from bad]
  · obtain ⟨c0, h0⟩ := low 0 (by decide)
    obtain ⟨c1, h1⟩ := low 1 (by decide)
    simp only [resolvePalette, bind, Except.bind]
    rw [show masterColor p pal[0] = _ from h0, show masterColor p pal[1] = _ from h1,
      show masterColor p pal[2] = _ from bad]
  · obtain ⟨c0, h0⟩ := low 0 (by decide)
    obtain ⟨c1, h1⟩ := low 1 (by decide)
    obtain ⟨c2, h2⟩ := low 2 (by decide)
    simp only [resolvePalette, bind, Except.bind]
    rw [show masterColor p pal[0] = _ from h0, show masterColor p pal[1] = _ from h1,
      show masterColor p pal[2] = _ from h2, show masterColor p pal[3] = _ from bad]

theorem exec_colorize_of {T : Tile} {pal : PaletteSelection} {col : Vector Colour 4}
    (h : resolvePalette s.cfg.masterPalette pal = .ok col) :
    exec (.colorize T pal) s = .next (respond (.coloredTile (colorTile T col)) s) := by
  simp only [exec, execColorize, h]; rfl

theorem exec_colorize_of_error {T : Tile} {pal : PaletteSelection} {f : FaultRecord}
    (h : resolvePalette s.cfg.masterPalette pal = .error f) :
    exec (.colorize T pal) s = .next (raiseFault f s) := by
  simp only [exec, execColorize, h]; rfl

theorem colorTile_getElem (T : Tile) (col : Vector Colour 4) (j : Nat) (h : j < 64) :
    (colorTile T col)[j] = col[T[j].toFin] := by
  simp [colorTile]

/-! ### Every operation at once -/

/-- The state, up to the response, that an operation leaves when it raises no fault. -/
def LeavesUpToResponse (i : Instr) (s u : State) : Prop :=
  match i with
  | .getByte a      => u = afterRead a s
  | .getWord a      => u = afterRead (a + 1) (afterRead a s)
  | .setByte a v    => u = memWrite a v s
  | .setWord a w    =>
      (s.cfg.setWordMode = .sameAddress ∧ u = memWrite a (highByte w) (memWrite a (lowByte w) s)) ∨
      (s.cfg.setWordMode = .split ∧ u = memWrite (a + 1) (highByte w) (memWrite a (lowByte w) s))
  | .pushByte v     => u = { s with wram := s.wram.write (0x100 + s.sp.toNat) v, sp := s.sp - 1 }
  | .pushWord w     => u = { s with
      wram := (s.wram.write (0x100 + s.sp.toNat) (highByte w)).write (0x100 + (s.sp - 1).toNat) (lowByte w)
      sp := s.sp - 1 - 1 }
  | .popByte        => u = { s with sp := s.sp + 1 }
  | .popWord        => u = { s with sp := s.sp + 1 + 1 }
  | .incrementByte  => u = { afterRead s.pc s with pc := s.pc + 1 }
  | .incrementWord  => u = { afterRead (s.pc + 1) (afterRead s.pc s) with pc := s.pc + 2 }
  | .oamRead _      => u = s
  | .oamWrite k v   => u = oamSet k v s
  | .oamSync        => u = syncOam s
  | .tileDecode _   => u = s
  | .tileGet _ _ _  => u = s
  | .colorize _ _   => u = s
  | .coloredGet _ _ _ => u = s
  | .attrDecode _   => u = s
  | .attrEncode _   => u = s

/-- Why an operation raises a fault in the state `s` (R301). -/
def FaultCause (i : Instr) (s : State) (f : FaultRecord) : Prop :=
  match i with
  | .getByte a      => f = .romRange a ∧ ¬ Readable s.cfg a
  | .getWord a      => (f = .romRange a ∧ ¬ Readable s.cfg a) ∨ (f = .addrOverflow a ∧ ¬ Advances s.cfg a 1) ∨
      (f = .romRange (a + 1) ∧ ¬ Readable s.cfg (a + 1))
  | .setWord a _    => s.cfg.setWordMode = .split ∧ f = .addrOverflow a ∧ ¬ Advances s.cfg a 1
  | .incrementByte  => (f = .romRange s.pc ∧ ¬ Readable s.cfg s.pc) ∨
      (f = .addrOverflow s.pc ∧ ¬ Advances s.cfg s.pc 1)
  | .incrementWord  => (f = .romRange s.pc ∧ ¬ Readable s.cfg s.pc) ∨
      (f = .addrOverflow s.pc ∧ ¬ Advances s.cfg s.pc 2) ∨ (f = .romRange (s.pc + 1) ∧ ¬ Readable s.cfg (s.pc + 1))
  | .tileDecode n   => f = .tileIndex n ∧ s.cfg.tileMem.size < 16 * n + 16
  | .tileGet _ x y  => f = .tileCoord x y ∧ (8 ≤ x ∨ 8 ≤ y)
  | .colorize _ pal => ∃ k : Fin 4, f = .paletteIndex pal[k] ∧ 64 ≤ pal[k].toNat
  | .coloredGet _ x y => f = .tileCoord x y ∧ (8 ≤ x ∨ 8 ≤ y)
  | .setByte _ _ | .pushByte _ | .pushWord _ | .popByte | .popWord | .oamRead _ | .oamWrite _ _ | .oamSync
  | .attrDecode _ | .attrEncode _ => False

/-- The lowest bad entry of a palette selection, if it has one. -/
theorem palette_cases (pal : PaletteSelection) :
    (∀ k : Fin 4, pal[k].toNat < 64) ∨
    ∃ k : Fin 4, 64 ≤ pal[k].toNat ∧ ∀ j : Fin 4, j < k → pal[j].toNat < 64 := by
  by_cases h : ∀ k : Fin 4, pal[k].toNat < 64
  · exact .inl h
  · obtain ⟨k, hk⟩ := not_forall.1 h
    obtain ⟨m, hm, hmin⟩ := WellFounded.has_min (wellFounded_lt (α := Fin 4)) {k | 64 ≤ pal[k].toNat}
      ⟨k, Nat.not_lt.1 hk⟩
    exact .inr ⟨m, hm, fun j hj => Nat.lt_of_not_le fun h' => hmin j h' hj⟩

theorem advances_of_two {c : Config} {a : Addr} (h : Advances c a 2) : Advances c a 1 :=
  h.imp_left fun h => by omega

/-- Every operation ends in a next state: the one its rule leaves, with a response that is no fault; or a fault, for a
cause. -/
theorem exec_cases (i : Instr) (s : State) :
    (∃ r u, exec i s = .next (respond r u) ∧ (∀ f, r ≠ .fault f) ∧ LeavesUpToResponse i s u) ∨
    (∃ f, exec i s = .next (raiseFault f s) ∧ FaultCause i s f) := by
  cases i with
  | getByte a =>
    by_cases h : Readable s.cfg a
    · exact .inl ⟨_, _, exec_getByte_ok h, nofun, rfl⟩
    · exact .inr ⟨_, exec_getByte_error h, rfl, h⟩
  | getWord a =>
    rcases readWord_cases a s with ⟨w, h, -⟩ | ⟨h, h'⟩ | ⟨h, h'⟩ | ⟨h, h'⟩
    · exact .inl ⟨_, _, exec_getWord_of_readWord h, nofun, rfl⟩
    · exact .inr ⟨_, exec_getWord_of_error h, .inl ⟨rfl, h'⟩⟩
    · exact .inr ⟨_, exec_getWord_of_error h, .inr (.inl ⟨rfl, h'⟩)⟩
    · exact .inr ⟨_, exec_getWord_of_error h, .inr (.inr ⟨rfl, h'⟩)⟩
  | setByte a v => exact .inl ⟨_, _, exec_setByte a v s, nofun, rfl⟩
  | setWord a w =>
    cases hm : s.cfg.setWordMode with
    | sameAddress => exact .inl ⟨_, _, exec_setWord_sameAddress a w hm, nofun, .inl ⟨hm, rfl⟩⟩
    | split =>
      by_cases h : Advances s.cfg a 1
      · exact .inl ⟨_, _, exec_setWord_split w hm h, nofun, .inr ⟨hm, rfl⟩⟩
      · exact .inr ⟨_, exec_setWord_split_error w hm h, hm, rfl, h⟩
  | pushByte v => exact .inl ⟨.done, { s with wram := s.wram.write (0x100 + s.sp.toNat) v, sp := s.sp - 1 }, exec_pushByte v s, nofun, rfl⟩
  | pushWord w => exact .inl ⟨.done, { s with
      wram := (s.wram.write (0x100 + s.sp.toNat) (highByte w)).write (0x100 + (s.sp - 1).toNat) (lowByte w)
      sp := s.sp - 1 - 1 }, exec_pushWord w s, nofun, rfl⟩
  | popByte => exact .inl ⟨_, { s with sp := s.sp + 1 }, exec_popByte s, nofun, rfl⟩
  | popWord => exact .inl ⟨_, { s with sp := s.sp + 1 + 1 }, exec_popWord s, nofun, rfl⟩
  | incrementByte =>
    by_cases h : Readable s.cfg s.pc
    · by_cases h1 : Advances s.cfg s.pc 1
      · exact .inl ⟨_, { afterRead s.pc s with pc := s.pc + 1 }, exec_incrementByte_ok h h1, nofun, rfl⟩
      · exact .inr ⟨_, exec_incrementByte_advance_error h h1, .inr ⟨rfl, h1⟩⟩
    · exact .inr ⟨_, exec_incrementByte_read_error h, .inl ⟨rfl, h⟩⟩
  | incrementWord =>
    rcases readWord_cases s.pc s with ⟨w, h, -⟩ | ⟨h, h'⟩ | ⟨h, h'⟩ | ⟨h, h'⟩
    · by_cases h1 : Advances s.cfg s.pc 2
      · exact .inl ⟨_, _, exec_incrementWord_ok h h1, nofun, rfl⟩
      · exact .inr ⟨_, exec_incrementWord_advance_error h h1, .inr (.inl ⟨rfl, h1⟩)⟩
    · exact .inr ⟨_, exec_incrementWord_read_error h, .inl ⟨rfl, h'⟩⟩
    · exact .inr ⟨_, exec_incrementWord_read_error h, .inr (.inl ⟨rfl, mt advances_of_two h'⟩)⟩
    · exact .inr ⟨_, exec_incrementWord_read_error h, .inr (.inr ⟨rfl, h'⟩)⟩
  | oamRead k => exact .inl ⟨_, _, exec_oamRead k s, nofun, rfl⟩
  | oamWrite k v => exact .inl ⟨_, _, exec_oamWrite k v s, nofun, rfl⟩
  | oamSync => exact .inl ⟨_, _, exec_oamSync s, nofun, rfl⟩
  | tileDecode n =>
    rcases Nat.lt_or_ge s.cfg.tileMem.size (16 * n + 16) with h | h
    · exact .inr ⟨_, exec_tileDecode_error h, rfl, h⟩
    · exact .inl ⟨_, _, exec_tileDecode_ok h, nofun, rfl⟩
  | tileGet T x y =>
    by_cases h : 8 ≤ x ∨ 8 ≤ y
    · exact .inr ⟨_, exec_tileGet_error T h, rfl, h⟩
    · exact .inl ⟨_, _, exec_tileGet_ok T (by omega) (by omega), nofun, rfl⟩
  | colorize T pal =>
    rcases palette_cases pal with h | ⟨k, h, hl⟩
    · obtain ⟨col, hc, -⟩ := resolvePalette_ok s.cfg.masterPalette pal h
      exact .inl ⟨_, _, exec_colorize_of hc, nofun, rfl⟩
    · exact .inr ⟨_, exec_colorize_of_error (resolvePalette_error _ pal k h hl), k, rfl, h⟩
  | coloredGet C x y =>
    by_cases h : 8 ≤ x ∨ 8 ≤ y
    · exact .inr ⟨_, exec_coloredGet_error C h, rfl, h⟩
    · exact .inl ⟨_, _, exec_coloredGet_ok C (by omega) (by omega), nofun, rfl⟩
  | attrDecode b => exact .inl ⟨_, _, exec_attrDecode b s, nofun, rfl⟩
  | attrEncode q => exact .inl ⟨_, _, exec_attrEncode q s, nofun, rfl⟩

/-- The next state of an operation: what its rule leaves, with a response that is no fault;
or a fault, for a cause. -/
theorem exec_inversion {i : Instr} (h : exec i s = .next t) :
    (∃ r u, t = respond r u ∧ (∀ f, r ≠ .fault f) ∧ LeavesUpToResponse i s u) ∨ (∃ f, t = raiseFault f s ∧ FaultCause i s f) := by
  rcases exec_cases i s with ⟨r, u, h1, h2⟩ | ⟨f, h1, h2⟩
  · exact .inl ⟨r, u, Host.Outcome.next.inj (h.symm.trans h1), h2⟩
  · exact .inr ⟨f, Host.Outcome.next.inj (h.symm.trans h1), h2⟩

/-- What no operation changes when it raises no fault: the fault record, the configuration, the inputs and the refusal
mark. -/
theorem LeavesUpToResponse.ports {i : Instr} {u : State} (h : LeavesUpToResponse i s u) :
    u.fault = s.fault ∧ u.cfg = s.cfg ∧ u.inputs = s.inputs ∧ u.refusalMark = s.refusalMark := by
  cases i <;> simp only [LeavesUpToResponse] at h
  case setWord a w => rcases h with ⟨-, rfl⟩ | ⟨-, rfl⟩ <;> simp
  case oamSync => subst h; rw [syncOam_frame]; simp
  all_goals subst h; simp

end Sys2Proof.Machine
end

