-- ==== Sys2Proof/Laws/PerInstr.lean ====
section
/-! SUPPORT. Families of statements made for each operation by name. -/

namespace Sys2Proof.Laws

/-- The request that the encoder gives an operation is read back as an operation of the same row of R111's table: the
encoder takes no reserved code and no neighbour's. -/
def Coded.Statement (i : Instr) : Prop := ∃ j, decode (encode i) = .ok j ∧ mnemonic j = mnemonic i

theorem Coded.getByte (a : Addr) : Coded.Statement (.getByte a) := ⟨_, rfl, rfl⟩
theorem Coded.getWord (a : Addr) : Coded.Statement (.getWord a) := ⟨_, rfl, rfl⟩
theorem Coded.setByte (a : Addr) (v : Byte) : Coded.Statement (.setByte a v) := ⟨_, rfl, rfl⟩
theorem Coded.setWord (a : Addr) (w : Word) : Coded.Statement (.setWord a w) := ⟨_, rfl, rfl⟩
theorem Coded.pushByte (v : Byte) : Coded.Statement (.pushByte v) := ⟨_, rfl, rfl⟩
theorem Coded.pushWord (w : Word) : Coded.Statement (.pushWord w) := ⟨_, rfl, rfl⟩
theorem Coded.popByte : Coded.Statement .popByte := ⟨_, rfl, rfl⟩
theorem Coded.popWord : Coded.Statement .popWord := ⟨_, rfl, rfl⟩
theorem Coded.incrementByte : Coded.Statement .incrementByte := ⟨_, rfl, rfl⟩
theorem Coded.incrementWord : Coded.Statement .incrementWord := ⟨_, rfl, rfl⟩
theorem Coded.oamRead (i : Byte) : Coded.Statement (.oamRead i) := ⟨_, rfl, rfl⟩
theorem Coded.oamWrite (i v : Byte) : Coded.Statement (.oamWrite i v) := ⟨_, rfl, rfl⟩
theorem Coded.oamSync : Coded.Statement .oamSync := ⟨_, rfl, rfl⟩
theorem Coded.tileDecode (n : Nat) : Coded.Statement (.tileDecode n) := ⟨_, rfl, rfl⟩
theorem Coded.tileGet (t : Tile) (x y : Nat) : Coded.Statement (.tileGet t x y) := by
  refine ⟨(.tileGet (tileOfPort (tileToPort t)) (BitVec.ofNat 3 x).toNat (BitVec.ofNat 3 y).toNat), ?_, ?_⟩
  · exact Eq.refl (Except.ok (Instr.tileGet (tileOfPort (tileToPort t)) (BitVec.ofNat 3 x).toNat (BitVec.ofNat 3 y).toNat))
  · exact Eq.refl "tile_get"
theorem Coded.colorize (t : Tile) (pal : PaletteSelection) : Coded.Statement (.colorize t pal) := by
  refine ⟨(.colorize (tileOfPort (tileToPort t)) (paletteOfPort (paletteToPort pal))), ?_, ?_⟩
  · exact Eq.refl (Except.ok (Instr.colorize (tileOfPort (tileToPort t)) (paletteOfPort (paletteToPort pal))))
  · exact Eq.refl "colorize"
theorem Coded.coloredGet (c : ColoredTile) (x y : Nat) : Coded.Statement (.coloredGet c x y) := by
  refine ⟨(.coloredGet (coloredTileOfPort (coloredTileToPort c)) (BitVec.ofNat 3 x).toNat (BitVec.ofNat 3 y).toNat), ?_, ?_⟩
  · exact Eq.refl (Except.ok (Instr.coloredGet (coloredTileOfPort (coloredTileToPort c)) (BitVec.ofNat 3 x).toNat (BitVec.ofNat 3 y).toNat))
  · exact Eq.refl "colored_get"
theorem Coded.attrDecode (b : Byte) : Coded.Statement (.attrDecode b) := ⟨_, rfl, rfl⟩
theorem Coded.attrEncode (attr : SpriteAttribute) : Coded.Statement (.attrEncode attr) := ⟨_, rfl, rfl⟩

end Sys2Proof.Laws
end

