-- ==== Sys2Proof/Laws/Ports.lean ====
section
/-! SUPPORT. The port formats lose no bit: cells packed side by side are read back, and bits read as cells are packed
back (R96 to R99, R110). -/

namespace Sys2Proof

variable {w : Nat}

theorem packCells_lt : ∀ cs : List (BitVec w), packCells w cs < 2 ^ (w * cs.length)
  | [] => by simp [packCells]
  | c :: cs => by
    have h1 := c.isLt
    have h2 := packCells_lt cs
    rw [packCells, List.length_cons, Nat.mul_succ, Nat.pow_add, Nat.mul_comm (2 ^ (w * cs.length))]
    calc c.toNat + 2 ^ w * packCells w cs < 2 ^ w + 2 ^ w * packCells w cs := by omega
      _ = 2 ^ w * (packCells w cs + 1) := by ring
      _ ≤ 2 ^ w * 2 ^ (w * cs.length) := Nat.mul_le_mul_left _ h2

/-- The packed number, shifted down by `i` cells, has cell `i` in its low bits. -/
theorem packCells_cell : ∀ (cs : List (BitVec w)) (i : Nat) (h : i < cs.length),
    packCells w cs / 2 ^ (w * i) % 2 ^ w = (cs[i]).toNat
  | c :: cs, 0, _ => by
    simp [packCells, Nat.add_mul_mod_self_left, Nat.mod_eq_of_lt c.isLt]
  | c :: cs, i + 1, h => by
    have hi : i < cs.length := by simpa using h
    rw [packCells, Nat.mul_succ, Nat.add_comm (w * i), Nat.pow_add, ← Nat.div_div_eq_div_mul,
      Nat.add_mul_div_left _ _ (Nat.two_pow_pos w), Nat.div_eq_of_lt c.isLt, Nat.zero_add, packCells_cell cs i hi]
    rfl

/-- A number below `2 ^ (w n)` is its `n` cells packed. -/
theorem packCells_of_cells : ∀ (n x : Nat), x < 2 ^ (w * n) →
    packCells w (List.ofFn fun i : Fin n => BitVec.ofNat w (x / 2 ^ (w * i.val))) = x
  | 0, x, h => by simp at h; simp [packCells, h]
  | n + 1, x, h => by
    have hx : x / 2 ^ w < 2 ^ (w * n) := by
      rw [Nat.div_lt_iff_lt_mul (Nat.two_pow_pos w), ← Nat.pow_add, ← Nat.mul_succ]; exact h
    have e := packCells_of_cells n (x / 2 ^ w) hx
    have e2 : (fun i : Fin n => BitVec.ofNat w (x / 2 ^ (w * i.succ.val))) =
        fun i : Fin n => BitVec.ofNat w (x / 2 ^ w / 2 ^ (w * i.val)) := by
      funext i
      rw [Nat.div_div_eq_div_mul, ← Nat.pow_add, Fin.val_succ, Nat.mul_succ, Nat.add_comm w]
    rw [List.ofFn_succ, packCells, e2, e]
    simpa using Nat.mod_add_div x (2 ^ w)

/-- Cells put side by side on a port are read back. -/
theorem extractLsb'_packCells {n : Nat} (v : Vector (BitVec w) n) (i : Nat) (h : i < n) :
    (BitVec.ofNat (w * n) (packCells w v.toList)).extractLsb' (w * i) w = v[i] := by
  have hl : packCells w v.toList < 2 ^ (w * n) := by simpa using packCells_lt v.toList
  apply BitVec.eq_of_toNat_eq
  rw [BitVec.extractLsb'_toNat, BitVec.toNat_ofNat, Nat.mod_eq_of_lt hl, Nat.shiftRight_eq_div_pow,
    packCells_cell _ i (by simpa using h)]
  simp

/-- The cells read from a port are put back as they were. -/
theorem packCells_extractLsb' {n : Nat} (b : BitVec (w * n)) :
    BitVec.ofNat (w * n) (packCells w (Vector.ofFn fun i : Fin n => b.extractLsb' (w * i.val) w).toList) = b := by
  have e : (Vector.ofFn fun i : Fin n => b.extractLsb' (w * i.val) w).toList =
      List.ofFn fun i : Fin n => BitVec.ofNat w (b.toNat / 2 ^ (w * i.val)) := by
    rw [Vector.toList_ofFn]
    congr 1
    funext i
    exact BitVec.eq_of_toNat_eq (by simp [BitVec.extractLsb'_toNat, Nat.shiftRight_eq_div_pow])
  rw [e, packCells_of_cells n b.toNat b.isLt]
  simp

theorem tileOfPort_toPort (t : Tile) : tileOfPort (tileToPort t) = t :=
  Vector.ext fun i h => by
    simp only [tileOfPort, Vector.getElem_ofFn]; exact extractLsb'_packCells (n := 64) t i h

theorem coloredTileOfPort_toPort (c : ColoredTile) : coloredTileOfPort (coloredTileToPort c) = c :=
  Vector.ext fun i h => by
    simp only [coloredTileOfPort, Vector.getElem_ofFn]; exact extractLsb'_packCells (n := 64) c i h

theorem paletteOfPort_toPort (p : PaletteSelection) : paletteOfPort (paletteToPort p) = p :=
  Vector.ext fun i h => by
    simp only [paletteOfPort, Vector.getElem_ofFn]; exact extractLsb'_packCells (n := 4) p i h

theorem attributeOfPort_toPort (q : SpriteAttribute) : attributeOfPort (attributeToPort q) = q := by
  obtain ⟨v, h, d, p⟩ := q
  revert v h d p; decide

/-! ### The request as one number -/

theorem ofNat_putField (v : BitVec w) (above : Nat) : BitVec.ofNat w (putField v above) = v := by
  apply BitVec.eq_of_toNat_eq
  rw [putField, BitVec.toNat_ofNat, Nat.add_mul_mod_self_left, Nat.mod_eq_of_lt v.isLt]

theorem putField_shift (v : BitVec w) (above : Nat) : putField v above >>> w = above := by
  rw [putField, Nat.shiftRight_eq_div_pow, Nat.add_mul_div_left _ _ (Nat.two_pow_pos w), Nat.div_eq_of_lt v.isLt,
    Nat.zero_add]

/-- What lies `k` bits above a field lies `w + k` bits up. -/
theorem putField_shift_add (v : BitVec w) (above k : Nat) : putField v above >>> (w + k) = above >>> k := by
  rw [Nat.shiftRight_add, putField_shift]

/-- The request that a request's bits spell is the request. -/
theorem ofBits_toBits (r : Request) : Request.ofBits r.toBits = r := by
  have h5 : r.toBits >>> 5 = _ := putField_shift r.op _
  have h21 : r.toBits >>> 21 = _ := (putField_shift_add r.op _ 16).trans (putField_shift r.a _)
  have h37 : r.toBits >>> 37 = _ :=
    (putField_shift_add r.op _ 32).trans <| (putField_shift_add r.a _ 16).trans (putField_shift r.d _)
  have h40 : r.toBits >>> 40 = _ :=
    (putField_shift_add r.op _ 35).trans <| (putField_shift_add r.a _ 19).trans <|
      (putField_shift_add r.d _ 3).trans (putField_shift r.x _)
  have h43 : r.toBits >>> 43 = _ :=
    (putField_shift_add r.op _ 38).trans <| (putField_shift_add r.a _ 22).trans <|
      (putField_shift_add r.d _ 6).trans <| (putField_shift_add r.x _ 3).trans (putField_shift r.y _)
  have h171 : r.toBits >>> 171 = _ :=
    (Nat.shiftRight_add r.toBits 43 128).trans <| (congrArg (· >>> 128) h43).trans (putField_shift r.tile _)
  have h203 : r.toBits >>> 203 = _ :=
    (Nat.shiftRight_add r.toBits 171 32).trans <| (congrArg (· >>> 32) h171).trans (putField_shift r.pal _)
  have h1739 : r.toBits >>> 1739 = _ :=
    (Nat.shiftRight_add r.toBits 203 1536).trans <| (congrArg (· >>> 1536) h203).trans (putField_shift r.ctile _)
  have h1744 : r.toBits >>> 1744 = _ :=
    (Nat.shiftRight_add r.toBits 1739 5).trans <| (congrArg (· >>> 5) h1739).trans (putField_shift r.attr5 _)
  have h0 : BitVec.ofNat 5 r.toBits = r.op := ofNat_putField r.op _
  rw [Request.ofBits, h0, h5, h21, h37, h40, h43, h171, h203, h1739, h1744]
  simp only [ofNat_putField]

end Sys2Proof
end

