-- ==== Sys2Proof/Laws/Step.lean ====
section
/-! SUPPORT. What one step can do, said once. -/

namespace Sys2Proof.Machine

variable {s t : State}

/-- The next state of a step: the block was not stopped, and it was idle, or one input was served: a register write of
the external CPU, an operation, or a reserved code. -/
theorem step_cases (h : step s = .next t) :
    s.fault = none ∧
    ((s.inputs = [] ∧ t = s) ∨
     (∃ v rest, s.inputs = .cpuWritesPc v :: rest ∧ t = externalPcWrite v (takeInput rest s)) ∨
     (∃ v rest, s.inputs = .cpuWritesS v :: rest ∧ t = externalSWrite v (takeInput rest s)) ∨
     (∃ r rest i, s.inputs = .request r :: rest ∧ decode r = .ok i ∧ exec i (takeInput rest s) = .next t) ∨
     (∃ r rest op, s.inputs = .request r :: rest ∧ decode r = .error (.reservedOp op) ∧
        t = refuse op (takeInput rest s))) := by
  unfold step at h
  split at h
  · cases h
  · next hf =>
    refine ⟨hf, ?_⟩
    split at h
    · next hi => cases h; exact .inl ⟨hi, rfl⟩
    · next hi => cases h; exact .inr (.inl ⟨_, _, hi, rfl⟩)
    · next hi => cases h; exact .inr (.inr (.inl ⟨_, _, hi, rfl⟩))
    · next hi =>
      split at h
      · next hd => exact .inr (.inr (.inr (.inl ⟨_, _, _, hi, hd, h⟩)))
      · next hd => cases h; exact .inr (.inr (.inr (.inr ⟨_, _, _, hi, hd, rfl⟩)))

/-- A run of `k + 1` steps whose first step answers a next state is that step and a run of `k`. -/
theorem run_succ (M : Host.Core) (k : Nat) {s t : M.State} (h : M.step s = .next t) :
    M.run (k + 1) s = M.run k t := by
  simp [Host.Core.run, h]

end Sys2Proof.Machine
end

