-- ==== Sys2Proof/Tests/Slice0.lean ====
section
/-! SUPPORT. Tests of the model.  The numbers A1, B2, K3, ... are rows of spec/95_test_vectors.md, from which the
expected values come; other expected values come from the rule cited.  Each statement for the provers that has
hypotheses has a witness that meets them, clause by clause and at the ends of their ranges. -/

namespace Sys2Proof.Tests

open Sys2Proof Sys2Proof.Machine

/-! ### Sample states -/

/-- The start of 95_test_vectors.md sections 2.1 and 2.2, with the second tile of Program 4 and a palette whose entry
`i` is the colour `i`. -/
def config : Config := { Config.atReset with
  rom           := { size := 0x8000, cells := [(0, 0xA0), (1, 0x12), (0x4000, 0xC0), (0x7FFF, 0xFF)] }
  tileMem       := { size := 32, cells := [(16, 0x0F), (17, 0x80), (24, 0x33), (25, 0x01)] }
  masterPalette := Vector.ofFn fun i => BitVec.ofNat 24 i.val
  wramInit      := [(0x000, 0x11), (0x7FF, 0x22)] }

/-- `config` with a 16384-byte ROM. -/
def shortRom (r : RomRange) : Config := { config with
  rom      := { size := 0x4000, cells := [(0, 0xA0), (0x3FFC, 0x78), (0x3FFD, 0x56), (0x3FFF, 0xEE)] }
  romRange := r }

def wrapping : Config := { config with addrOverflow := .wrap }

def splitting : Config := { config with setWordMode := .split }

/-- The state after startup under `c`, with `oam_data = 0x5D`, and with `PC` and `S` as the external CPU set them. -/
def at' (c : Config) (pc : Addr := 0) (sp : Byte := 0) : State :=
  { State.init c with oamData := 0x5D, pc := pc, sp := sp }

/-- A state in which `oam_addr`, `intent` and `oam_data` are as given. -/
def withOam (i : Byte) (intent : Intent) (v : Byte) : State :=
  { State.init config with oamAddr := i, intent := intent, oamData := v }

def request (i : Instr) : Input := .request (encode i)

/-- The next state of an operation (and the state itself where there is none). -/
def after (i : Instr) (s : State) : State :=
  match exec i s with
  | .next t => t
  | .fault _ => s
  | .refused _ => s

def responseOf (i : Instr) (s : State) : Option Response := (after i s).response

def isNext : Host.Outcome State Fault Refusal → Bool
  | .next _ => true
  | .fault _ => false
  | .refused _ => false

/-- From a state without a fault, the operation answers a next state that has this fault record, or none. -/
abbrev ends (i : Instr) (s : State) (f : Option FaultRecord) : Prop :=
  isNext (exec i s) = true ∧ s.fault = none ∧ (after i s).fault = f

/-- Both ends of a range of addresses meet `p`. -/
abbrev atEnds (p : Addr → Prop) (first last : Addr) : Prop := p first ∧ p last

/-! ### Which operations a request can spell -/

theorem test_wellFormed_refuses_column_8 : ¬ (Instr.tileGet (Vector.replicate 64 0) 8 0).WellFormed := by decide
theorem test_wellFormed_refuses_row_8 : ¬ (Instr.tileGet (Vector.replicate 64 0) 0 8).WellFormed := by decide
theorem test_wellFormed_refuses_colored_column_8 : ¬ (Instr.coloredGet (Vector.replicate 64 0) 8 0).WellFormed := by
  decide
theorem test_wellFormed_refuses_colored_row_8 : ¬ (Instr.coloredGet (Vector.replicate 64 0) 0 8).WellFormed := by decide
theorem test_wellFormed_takes_7 : (Instr.tileGet (Vector.replicate 64 0) 7 7).WellFormed := by decide
/-- A bad palette entry is encodable: it faults when it is run (R113). -/
theorem test_wellFormed_takes_bad_palette : (Instr.colorize (Vector.replicate 64 0) #v[255, 0, 0, 0]).WellFormed := by
  decide

/-- Each range that `Config.wf` checks. -/
theorem test_config_wf :
    Config.atReset.wf = true ∧ config.wf = true ∧ (shortRom .mirror).wf = true ∧
    { config with rom := { size := 0, cells := [] } }.wf = false ∧
    { config with rom := { size := 0x8001, cells := [] } }.wf = false ∧
    { config with rom := { size := 0x4000, cells := [(0x4000, 1)] } }.wf = false ∧
    { config with tileMem := { size := 16, cells := [(16, 1)] } }.wf = false ∧
    { config with oamDataSel := 3 }.wf = false ∧
    { config with wramInit := [(0x800, 1)] }.wf = false ∧
    { config with wramInit := [(5, 1), (5, 2)] }.wf = false := by decide

theorem test_memory_at_reset : State.reset.wram.wf = true ∧ State.reset.wram.within 0x800 = true := by decide

/-! ### Decoding: words written out from R110, R111 (and log 5 for the places of the fields above `op`) -/

theorem test_decode_get_byte : decodeTableWord 24 (0b00000 + 0x2004 * 2 ^ 5) = some (.getByte 0x2004) := by decide
theorem test_decode_get_word : decodeTableWord 24 (0b00001 + 0xFFFC * 2 ^ 5) = some (.getWord 0xFFFC) := by decide
/-- Only `d[7:0]` is read: the rest of `d` is ignored (R110). -/
theorem test_decode_set_byte :
    decodeTableWord 40 (0b00010 + 0x0200 * 2 ^ 5 + 0xFF41 * 2 ^ 21) = some (.setByte 0x0200 0x41) := by decide
theorem test_decode_set_word :
    decodeTableWord 40 (0b00011 + 0x0300 * 2 ^ 5 + 0xBEEF * 2 ^ 21) = some (.setWord 0x0300 0xBEEF) := by decide
theorem test_decode_push_byte : decodeTableWord 40 (0b00100 + 0x7F * 2 ^ 21) = some (.pushByte 0x7F) := by decide
theorem test_decode_push_word : decodeTableWord 40 (0b00101 + 0x8002 * 2 ^ 21) = some (.pushWord 0x8002) := by decide
theorem test_decode_pop_byte : decodeTableWord 8 0b00110 = some .popByte := by decide
theorem test_decode_pop_word : decodeTableWord 8 0b00111 = some .popWord := by decide
theorem test_decode_increment_byte : decodeTableWord 8 0b01000 = some .incrementByte := by decide
theorem test_decode_increment_word : decodeTableWord 8 0b01001 = some .incrementWord := by decide
theorem test_decode_oam_read : decodeTableWord 24 (0b10000 + 0xFF07 * 2 ^ 5) = some (.oamRead 7) := by decide
theorem test_decode_oam_write :
    decodeTableWord 40 (0b10001 + 10 * 2 ^ 5 + 0xAB * 2 ^ 21) = some (.oamWrite 10 0xAB) := by decide
theorem test_decode_oam_sync : decodeTableWord 8 0b10010 = some .oamSync := by decide
theorem test_decode_tile_decode : decode { requestOf 0b11000 with n := 1000000 } = .ok (.tileDecode 1000000) := by decide
/-- T7's tile value 0x8001; and the coordinates of the word's `x` and `y` fields. -/
theorem test_decode_tile_get :
    decode { requestOf 0b11001 with tile := 0x8001, x := 0b111, y := 0b000 } =
      .ok (.tileGet (((Vector.replicate 64 0).set 0 1).set 7 2) 7 0) ∧
    decodeTableWord 48 (0b11001 + 0b110 * 2 ^ 37 + 0b101 * 2 ^ 40) =
      some (.tileGet (Vector.replicate 64 0) 6 5) := by decide
/-- L2's palette field. -/
theorem test_decode_colorize :
    decode { requestOf 0b11010 with pal := 0x3027160F } =
      .ok (.colorize (Vector.replicate 64 0) #v[0x0F, 0x16, 0x27, 0x30]) := by decide
theorem test_decode_colored_get :
    decode { requestOf 0b11011 with ctile := 0xABCDEF000001, x := 1, y := 0 } =
      .ok (.coloredGet (((Vector.replicate 64 0).set 0 0x000001).set 1 0xABCDEF) 1 0) := by decide +kernel
theorem test_decode_attr_decode : decodeTableWord 40 (0b11100 + 0xA3 * 2 ^ 21) = some (.attrDecode 0xA3) := by decide
/-- `attr5 = 0x17` is `{1, 0, 1, 3}` (R96, section 2.8). -/
theorem test_decode_attr_encode :
    decode { requestOf 0b11101 with attr5 := 0x17 } = .ok (.attrEncode
      { verticalFlip := true, horizontalFlip := false, hide := true, palette := 3 }) := by decide
/-- R112. -/
theorem test_decode_reserved :
    ∀ op ∈ [0x0A, 0x0B, 0x0C, 0x0D, 0x0E, 0x0F, 0x13, 0x14, 0x15, 0x16, 0x17, 0x1E, 0x1F],
      decodeTableWord 8 op = none := by decide

/-! ### Bus access -/

/-- A1 to A4. -/
theorem test_get_byte_work_ram :
    responseOf (.getByte 0x0000) (at' config) = some (.byte 0x11) ∧
    responseOf (.getByte 0x07FF) (at' config) = some (.byte 0x22) ∧
    responseOf (.getByte 0x0800) (at' config) = some (.byte 0x11) ∧
    responseOf (.getByte 0x1FFF) (at' config) = some (.byte 0x22) := by decide

/-- A7, A9, A10, A12, A14 to A19. -/
theorem test_get_byte_elsewhere :
    responseOf (.getByte 0x2004) (at' config) = some (.byte 0x5D) ∧
    responseOf (.getByte 0x200C) (at' config) = some (.byte 0x5D) ∧
    responseOf (.getByte 0x3FFC) (at' config) = some (.byte 0x5D) ∧
    responseOf (.getByte 0x4000) (at' config) = some (.byte 0x00) ∧
    (after (.getByte 0x4000) (at' config)).diag = [{ kind := .unmappedRead, addr := 0x4000 }] ∧
    responseOf (.getByte 0x8000) (at' config) = some (.byte 0xA0) ∧
    responseOf (.getByte 0xC000) (at' config) = some (.byte 0xC0) ∧
    responseOf (.getByte 0xFFFF) (at' config) = some (.byte 0xFF) ∧
    responseOf (.getByte 0xC000) (at' (shortRom .fault)) = some (.fault (.romRange 0xC000)) ∧
    responseOf (.getByte 0xC000) (at' (shortRom .mirror)) = some (.byte 0xA0) ∧
    responseOf (.getByte 0xBFFF) (at' (shortRom .fault)) = some (.byte 0xEE) := by decide

/-- B1, B2, B6, B8, B10. -/
theorem test_get_word :
    responseOf (.getWord 0x8000) (at' config) = some (.word 0x12A0) ∧
    responseOf (.getWord 0x07FF) (at' config) = some (.word 0x1122) ∧
    responseOf (.getWord 0x7FFF) (at' config) = some (.word 0xA000) ∧
    responseOf (.getWord 0xFFFF) (at' wrapping) = some (.word 0x11FF) ∧
    responseOf (.getWord 0xFFFC) (at' (shortRom .mirror)) = some (.word 0x5678) := by decide

/-- B7, B9. -/
theorem test_get_word_faults :
    responseOf (.getWord 0xFFFF) (at' config) = some (.fault (.addrOverflow 0xFFFF)) ∧
    responseOf (.getWord 0xFFFF) (at' (shortRom .fault)) = some (.fault (.romRange 0xFFFF)) := by decide

/-- A20, A21, A22, A24. -/
theorem test_set_byte :
    (after (.setByte 0x1801 0x33) (at' config)).wram = [(0, 0x11), (1, 0x33), (0x7FF, 0x22)] ∧
    (after (.setByte 0x4000 0x99) (at' config)).diag = [{ kind := .unmappedWrite, addr := 0x4000 }] ∧
    (after (.setByte 0xFFFF 0x99) (at' config)).diag = [{ kind := .romWrite, addr := 0xFFFF }] ∧
    (after (.setByte 0x2000 0x80) (at' config)).extWrites = [{ addr := 0x2000, value := 0x80 }] ∧
    (after (.setByte 0x2000 0x80) (at' config)).intent = .idle := by decide

/-- S5 as corrected (O7): 0xAB at OAM byte 10 reads back as 0xA3. -/
theorem test_set_byte_oam_data :
    let s := after (.setByte 0x2004 0xAB) (after (.setByte 0x2003 10) (at' config))
    responseOf (.oamRead 10) s = some (.byte 0xA3) ∧ s.oamAddr = 11 ∧ s.oamData = 0x00 ∧ s.intent = .idle := by decide

/-- W1, W2 and W5 under `SameAddress`. -/
theorem test_set_word_same_address :
    (after (.setWord 0x0300 0xBEEF) (at' config)).wram = [(0, 0x11), (0x300, 0xBE), (0x7FF, 0x22)] ∧
    (after (.setWord 0x0300 0x00FF) (at' config)).wram = [(0, 0x11), (0x7FF, 0x22)] ∧
    (after (.setWord 0x2003 0x7F10) (at' config)).oamAddr = 0x7F ∧
    (after (.setWord 0xFFFF 0x1234) (at' config)).fault = none := by decide

/-- W1, W3, W7 and W8 under `Split`. -/
theorem test_set_word_split :
    (after (.setWord 0x0300 0xBEEF) (at' splitting)).wram = [(0, 0x11), (0x300, 0xEF), (0x301, 0xBE), (0x7FF, 0x22)] ∧
    (after (.setWord 0x1FFF 0x1234) (at' splitting)).extWrites = [{ addr := 0x2000, value := 0x12 }] ∧
    (after (.setWord 0xFFFF 0x1234) (at' splitting)).fault = some (.addrOverflow 0xFFFF) ∧
    (after (.setWord 0xFFFF 0x1234) (at' { splitting with addrOverflow := .wrap })).wram =
      [(0, 0x12), (0x7FF, 0x22)] := by decide

/-! ### Stack -/

/-- K1, K3. -/
theorem test_push_byte :
    (after (.pushByte 0x42) (at' config 0 0xFD)).wram = [(0, 0x11), (0x1FD, 0x42), (0x7FF, 0x22)] ∧
    (after (.pushByte 0x42) (at' config 0 0xFD)).sp = 0xFC ∧
    (after (.pushByte 0x77) (at' config 0 0x00)).sp = 0xFF := by decide

/-- K8. -/
theorem test_push_word :
    (after (.pushWord 0xABCD) (at' config 0 0x00)).wram = [(0, 0x11), (0x100, 0xAB), (0x1FF, 0xCD), (0x7FF, 0x22)] ∧
    (after (.pushWord 0xABCD) (at' config 0 0x00)).sp = 0xFE := by decide

/-- K4. -/
theorem test_pop_byte :
    let s := { at' config 0 0xFF with wram := [(0x100, 0x77)] }
    responseOf .popByte s = some (.byte 0x77) ∧ (after .popByte s).sp = 0x00 := by decide

/-- K12. -/
theorem test_pop_word :
    let s := { at' config 0 0xFF with wram := [(0x100, 0x34), (0x101, 0x12)] }
    responseOf .popWord s = some (.word 0x1234) ∧ (after .popWord s).sp = 0x01 := by decide

/-! ### Fetch -/

/-- P4, P5, P6, and P7 with this state's ROM byte 0x7FFF. -/
theorem test_increment_byte :
    (after .incrementByte (at' config 0x4000)).pc = 0x4001 ∧
    responseOf .incrementByte (at' config 0x2004) = some (.byte 0x5D) ∧
    (after .incrementByte (at' config 0xFFFF)).fault = some (.addrOverflow 0xFFFF) ∧
    responseOf .incrementByte (at' wrapping 0xFFFF) = some (.byte 0xFF) ∧
    (after .incrementByte (at' wrapping 0xFFFF)).pc = 0x0000 := by decide

/-- P3, P8, P10, and P11 with this state's ROM byte 0x7FFF. -/
theorem test_increment_word :
    responseOf .incrementWord (at' config 0x07FF) = some (.word 0x1122) ∧
    (after .incrementWord (at' config 0x07FF)).pc = 0x0801 ∧
    (after .incrementWord (at' config 0xFFFE)).fault = some (.addrOverflow 0xFFFE) ∧
    (after .incrementWord (at' config 0xFFFF)).fault = some (.addrOverflow 0xFFFF) ∧
    responseOf .incrementWord (at' wrapping 0xFFFF) = some (.word 0x11FF) ∧
    (after .incrementWord (at' wrapping 0xFFFF)).pc = 0x0001 := by decide

/-! ### Tiles and colours -/

/-- Row 0 of T6 (0 0 2 2 1 1 3 3), then row 0 of T7 (1 0 0 0 0 0 0 2), as rows 0 and 1 of tile 1. -/
def sampleTile : Tile :=
  Vector.ofFn fun i => [0, 0, 2, 2, 1, 1, 3, 3, 1, 0, 0, 0, 0, 0, 0, 2].getD i.val 0

/-- T6, T7, T12. -/
theorem test_tile_decode : responseOf (.tileDecode 1) (at' config) = some (.tile sampleTile) := by decide

/-- T13 to T15. -/
theorem test_tile_decode_faults :
    responseOf (.tileDecode 2) (at' config) = some (.fault (.tileIndex 2)) ∧
    responseOf (.tileDecode 1) (at' { config with tileMem := { size := 31, cells := [] } }) =
      some (.fault (.tileIndex 1)) ∧
    responseOf (.tileDecode 0) (at' { config with tileMem := { size := 0, cells := [] } }) =
      some (.fault (.tileIndex 0)) := by decide

/-- T8, T9, T11, T16. -/
theorem test_tile_get :
    responseOf (.tileGet sampleTile 6 0) (at' config) = some (.pixel 3) ∧
    responseOf (.tileGet sampleTile 0 1) (at' config) = some (.pixel 1) ∧
    responseOf (.tileGet sampleTile 7 1) (at' config) = some (.pixel 2) ∧
    responseOf (.tileGet sampleTile 8 0) (at' config) = some (.fault (.tileCoord 8 0)) := by decide

/-- L2, L4, L5. -/
theorem test_colorize :
    responseOf (.colorize sampleTile #v[0x0F, 0x16, 0x27, 0x30]) (at' config) = some (.coloredTile
      (Vector.ofFn fun i => [0x0F, 0x0F, 0x27, 0x27, 0x16, 0x16, 0x30, 0x30, 0x16, 0x0F, 0x0F, 0x0F, 0x0F, 0x0F, 0x0F,
        0x27].getD i.val 0x0F)) ∧
    responseOf (.colorize (Vector.replicate 64 0) #v[0, 1, 2, 64]) (at' config) = some (.fault (.paletteIndex 64)) ∧
    responseOf (.colorize (Vector.replicate 64 3) #v[70, 64, 0, 0]) (at' config) =
      some (.fault (.paletteIndex 70)) := by decide

theorem test_colored_get :
    responseOf (.coloredGet ((Vector.replicate 64 0).set 46 0xABCDEF) 6 5) (at' config) = some (.colour 0xABCDEF) ∧
    responseOf (.coloredGet (Vector.replicate 64 0) 0 8) (at' config) = some (.fault (.tileCoord 0 8)) := by decide

/-! ### OAM and the codec -/

/-- R210's example: the default entry; O14's last field. -/
theorem test_oam_read :
    responseOf (.oamRead 2) (at' config) = some (.byte 0x20) ∧ responseOf (.oamRead 255) (at' config) = some (.byte 0) := by
  decide

/-- R211's example, and O13's stale latch. -/
theorem test_oam_write :
    (after (.oamWrite 9 0xAB) (at' config)).oam[2].tileIndex = 0xAB ∧
    responseOf (.oamRead 10) (after (.oamWrite 10 0xAB) (at' config)) = some (.byte 0xA3) ∧
    responseOf (.getByte 0x2004) (after (.oamWrite 0 0x55) (at' config)) = some (.byte 0x5D) := by decide

/-- O9 (the sync of a data write at 0xFF) and O12. -/
theorem test_oam_sync :
    (after .oamSync (withOam 0xFF .writeOamData 0x77)).oamAddr = 0x00 ∧
    (after .oamSync (withOam 0xFF .writeOamData 0x77)).oam[63].x = 0x77 ∧
    (after .oamSync (withOam 2 .writeOamAddr 0x77)).oamData = 0x20 ∧
    (after .oamSync (withOam 2 .reserved 0x77)).oamData = 0x77 ∧
    (after .oamSync (withOam 2 .reserved 0x77)).intent = .idle := by decide

/-- The rows 0xAB and 0x5A of section 2.8. -/
theorem test_attr_decode :
    responseOf (.attrDecode 0xAB) (at' config) = some (.attr
      { verticalFlip := true, horizontalFlip := false, hide := true, palette := 3 }) ∧
    responseOf (.attrDecode 0x5A) (at' config) = some (.attr
      { verticalFlip := false, horizontalFlip := true, hide := false, palette := 2 }) := by decide

theorem test_attr_encode :
    responseOf (.attrEncode { verticalFlip := true, horizontalFlip := false, hide := true, palette := 3 }) (at' config) =
      some (.byte 0xA3) ∧
    responseOf (.attrEncode { verticalFlip := false, horizontalFlip := true, hide := false, palette := 2 }) (at' config) =
      some (.byte 0x42) := by decide

/-! ### Steps -/

/-- The state a step answers (and the state itself where there is none). -/
def stepped (s : State) : State :=
  match step s with
  | .next t => t
  | .fault _ => s
  | .refused _ => s

/-- The first request after reset: step 1 of Program 2. -/
theorem test_step_from_reset :
    let t := stepped (State.reset.withFetchWord 40 (0b00010 + 0x2003 * 2 ^ 5 + 0x04 * 2 ^ 21))
    t.oamAddr = 4 ∧ t.oamData = 0x00 ∧ t.response = some .done ∧ t.inputs = [] := by decide

/-- F1, F2. -/
theorem test_step_refuses :
    (stepped (State.reset.withFetchWord 8 0x0A)).response = some (.refused 0x0A) ∧
    (stepped (State.reset.withFetchWord 8 0x1F)).response = some (.refused 0x1F) ∧
    (stepped (State.reset.withFetchWord 8 0x1F)).refusalMark = true := by decide

/-- F3: `tile_decode(0x200)` with 8192 bytes of tile memory, then any request. -/
theorem test_step_after_fault_stops :
    step (stepped { State.reset with inputs := [request (.tileDecode 0x200), request .popByte] }) =
      .fault (.stopped (.tileIndex 0x200)) := rfl

/-- Step 4 of Program 1. -/
theorem test_step_cpu_writes_pc :
    (stepped { at' config with inputs := [.cpuWritesPc 0x8010] }).pc = 0x8010 ∧
    (stepped { at' config with inputs := [.cpuWritesS 0xFD] }).sp = 0xFD := by decide

/-! ### Witnesses: states and operands that meet the hypotheses of the statements -/

/-- A state whose inputs are the requests given. -/
def asked (c : Config) (is : List Instr) : State := { at' c with inputs := is.map request }

theorem witness_ResetMeetsTheBlockInvariant : Config.atReset.wf = true ∧ (shortRom .fault).wf = true := by decide

/-- An operation that stores, one that faults, a write of the external CPU, and an idle step. -/
theorem witness_EveryStepKeepsTheBlockInvariant :
    ∀ s ∈ [asked config [.setByte 0x1FFF 0x33], asked config [.tileDecode 2], { at' config with inputs := [.cpuWritesPc 7] },
      at' config], s.Inv ∧ isNext (step s) = true := by decide

theorem witness_ConfigurationNeverChanges : isNext (step (asked config [.setByte 0x8000 0x33])) = true ∧
    isNext (step (asked config [.tileDecode 2])) = true := by decide

/-- An operation that faults, with its record and its response, and one that does not. -/
theorem witness_FaultIsRecordedAndStopsTheBlock :
    ends (.tileDecode 2) (at' config) (some (.tileIndex 2)) ∧
    responseOf (.tileDecode 2) (at' config) = some (.fault (.tileIndex 2)) ∧
    ends (.tileDecode 1) (at' config) none ∧
    (after (.tileDecode 2) (at' config)).fault = some (.tileIndex 2) := by decide

/-- Every fault of R301, at the ends of its range. -/
theorem witness_OnlyTheTablesOperationsFault :
    ends (.tileDecode 2) (at' config) (some (.tileIndex 2)) ∧
    ends (.colorize (Vector.replicate 64 0) #v[0, 0, 63, 64]) (at' config) (some (.paletteIndex 64)) ∧
    ends (.getWord 0xFFFF) (at' config) (some (.addrOverflow 0xFFFF)) ∧
    ends (.setWord 0xFFFF 0) (at' splitting) (some (.addrOverflow 0xFFFF)) ∧
    ends .incrementByte (at' config 0xFFFF) (some (.addrOverflow 0xFFFF)) ∧
    ends .incrementWord (at' config 0xFFFE) (some (.addrOverflow 0xFFFE)) ∧
    ends .incrementWord (at' config 0xFFFF) (some (.addrOverflow 0xFFFF)) ∧
    ends (.getByte 0xC000) (at' (shortRom .fault)) (some (.romRange 0xC000)) ∧
    ends (.getWord 0xBFFF) (at' (shortRom .fault)) (some (.romRange 0xC000)) ∧
    ends (.getWord 0xC000) (at' (shortRom .fault)) (some (.romRange 0xC000)) ∧
    ends .incrementByte (at' (shortRom .fault) 0xFFFF) (some (.romRange 0xFFFF)) ∧
    ends .incrementWord (at' (shortRom .fault) 0xBFFF) (some (.romRange 0xC000)) ∧
    ends (.tileGet (Vector.replicate 64 0) 8 0) (at' config) (some (.tileCoord 8 0)) ∧
    ends (.coloredGet (Vector.replicate 64 0) 7 8) (at' config) (some (.tileCoord 7 8)) := by decide

/-- Clause by clause. -/
theorem witness_FirstFaultReachedIsRaised :
    ¬ Readable (shortRom .fault) 0xC000 ∧ ¬ Readable (shortRom .fault) 0xFFFF ∧
    (Readable config 0xFFFF ∧ ¬ Advances config 0xFFFF 1) ∧
    (Readable (shortRom .fault) 0xBFFF ∧ Advances (shortRom .fault) 0xBFFF 1 ∧ ¬ Readable (shortRom .fault) (0xBFFF + 1)) ∧
    (splitting.setWordMode = .split ∧ ¬ Advances splitting 0xFFFF 1) ∧
    exec (.getWord 0xFFFF) (at' config 0xFFFF) = .next (raiseFault (.addrOverflow 0xFFFF) (at' config 0xFFFF)) ∧
    (Readable config 0xFFFE ∧ Readable config (0xFFFE + 1) ∧ Advances config 0xFFFE 1 ∧ ¬ Advances config 0xFFFE 2) ∧
    (64 ≤ (#v[63, 64, 255, 0] : PaletteSelection)[(1 : Fin 4)].toNat ∧
      ∀ j : Fin 4, j < 1 → (#v[63, 64, 255, 0] : PaletteSelection)[j].toNat < 64) :=
  ⟨by decide, by decide, by decide, by decide, by decide,
    exec_getWord_of_error (readWord_advance_error (by decide) (by decide)), by decide, by decide⟩

/-- Each kind of diagnostic, from each operation that emits it, at the ends of the regions, a word's second byte
included. -/
theorem witness_DiagnosticsAreOnlyAppended :
    (∀ i ∈ [Instr.getByte 0x4000, .getByte 0x7FFF, .getWord 0x3FFF, .getWord 0x7FFF, .setByte 0x4000 1, .setByte 0x7FFF 1,
      .setByte 0x8000 1, .setByte 0xFFFF 1, .setWord 0x4000 1, .setWord 0xFFFF 1],
      ends i (at' config) none ∧ (after i (at' config)).diag ≠ []) ∧
    (ends (.setWord 0x7FFF 1) (at' splitting) none ∧ (after (.setWord 0x7FFF 1) (at' splitting)).diag.length = 2) ∧
    (∀ i ∈ [Instr.incrementByte, .incrementWord], ends i (at' config 0x7FFF) none ∧
      (after i (at' config 0x7FFF)).diag ≠ []) := by decide

theorem witness_OnlyFetchAdvancesPc :
    ends .incrementByte (at' config 0xFFFE) none ∧ ends .incrementWord (at' config 0xFFFD) none ∧
    ends .popByte (at' config) none ∧ (at' config).fault = none ∧
    { at' config with inputs := [.cpuWritesPc 0xFFFF] }.inputs = .cpuWritesPc 0xFFFF :: [] := by decide

theorem witness_OnlyStackOperationsMoveS :
    (∀ i ∈ [Instr.pushByte 1, .pushWord 1, .popByte, .popWord, .oamSync], ends i (at' config 0 0x00) none ∧
      ends i (at' config 0 0xFF) none) ∧ (at' config).fault = none ∧
    { at' config with inputs := [.cpuWritesS 0xFF] }.inputs = .cpuWritesS 0xFF :: [] := by decide

theorem witness_WorkRamChangesOnlyWhereStored :
    (at' config).wram.wf = true ∧
    (ends (.setByte 0x1FFF 1) (at' config) none ∧ (after (.setByte 0x1FFF 1) (at' config)).wram.read 0x7FF ≠ 0x22) ∧
    (ends (.setWord 0x1FFF 0x100) (at' config) none ∧
      (after (.setWord 0x1FFF 0x100) (at' config)).wram.read 0x7FF ≠ 0x22) ∧
    (ends (.setWord 0x07FF 0x1234) (at' splitting) none ∧
      (after (.setWord 0x07FF 0x1234) (at' splitting)).wram.read 0 ≠ 0x11) ∧
    (ends (.pushByte 1) (at' config 0 0xFF) none ∧ (after (.pushByte 1) (at' config 0 0xFF)).wram.read 0x1FF ≠ 0) ∧
    (ends (.pushWord 1) (at' config 0 0x00) none ∧
      (after (.pushWord 1) (at' config 0 0x00)).wram.read 0x1FF ≠ 0) := by decide

/-- An operation that leaves OAM alone, and each one that may change it. -/
theorem witness_OamChangesOnlyThroughItsRegisters :
    (∀ i ∈ [Instr.pushByte 1, .oamWrite 0 1, .oamSync, .setByte 0x2003 1, .setByte 0x3FFC 1, .setWord 0x2004 0x1234],
      ends i (at' config) none) ∧
    ends (.setWord 0x1FFF 0x1234) (at' splitting) none := by decide

theorem witness_EncodedOperationsDecodeBack :
    (Instr.tileGet sampleTile 7 7).WellFormed ∧ (Instr.coloredGet (Vector.replicate 64 0xFFFFFF) 7 0).WellFormed ∧
    (Instr.colorize sampleTile #v[255, 64, 63, 0]).WellFormed ∧ (Instr.setWord 0xFFFF 0xFFFF).WellFormed := by decide

/-- One request for each code. -/
theorem witness_OperationCodesOfTheTable :
    ∀ op : BitVec 5, (requestOf op).op = op := by decide

theorem witness_ReservedCodesAreRefused :
    (requestOf 0x0A).op.toNat ∈ [0x0A, 0x0B, 0x0C, 0x0D, 0x0E, 0x0F, 0x13, 0x14, 0x15, 0x16, 0x17, 0x1E, 0x1F] ∧
    (requestOf 0x1F).op.toNat ∈ [0x0A, 0x0B, 0x0C, 0x0D, 0x0E, 0x0F, 0x13, 0x14, 0x15, 0x16, 0x17, 0x1E, 0x1F] ∧
    (requestOf 0x1D).op.toNat ∉ [0x0A, 0x0B, 0x0C, 0x0D, 0x0E, 0x0F, 0x13, 0x14, 0x15, 0x16, 0x17, 0x1E, 0x1F] ∧
    (at' config).fault = none ∧
    { at' config with inputs := [.request (requestOf 0x1F)] }.inputs = .request (requestOf 0x1F) :: [] ∧
    decode (requestOf 0x1F) = .error (.reservedOp (requestOf 0x1F).op) := by decide +kernel

theorem witness_RefusalMarkIsKept :
    isNext (step { asked config [.popByte] with refusalMark := true }) = true ∧
    isNext (step { asked config [.tileDecode 2] with refusalMark := true }) = true := by decide

/-- Clause by clause: a record, a mark, a step and a run to a successful state, a refused request, a faulting one. -/
theorem witness_FaultedOrRefusedRunsNeverSucceed :
    (after (.tileDecode 2) (at' config)).fault = some (.tileIndex 2) ∧
    (stepped { at' config with inputs := [.request (requestOf 0x1F)] }).refusalMark = true ∧
    isNext (step (asked config [.popByte])) = true ∧ (stepped (asked config [.popByte])).Successful ∧
    isNext (Host.Core.run core 2 (asked config [.popByte, .oamSync])) = true ∧
    (stepped (stepped (asked config [.popByte, .oamSync]))).Successful ∧
    isNext (step { at' config with inputs := [.request (requestOf 0x1F)] }) = true ∧
    responseOf (.tileDecode 2) (at' config) = some (.fault (.tileIndex 2)) := by decide

theorem witness_StepRunsTheDecodedRequest :
    (at' config).fault = none ∧ (at' config).inputs = [] ∧
    (asked config [.setByte 0xFFFF 0xFF, .popByte]).inputs =
      .request (encode (.setByte 0xFFFF 0xFF)) :: [request .popByte] ∧
    decode (encode (.setByte 0xFFFF 0xFF)) = .ok (.setByte 0xFFFF 0xFF) ∧
    (Instr.setByte 0xFFFF 0xFF).WellFormed := by decide +kernel

theorem witness_AddressMapOfTheCpuSpace : 0x8000 ≤ (0x8000 : Addr).toNat ∧ 0x8000 ≤ (0xFFFF : Addr).toNat := by decide

/-- Clause by clause, at the ends of each range, and the codes of the two operations. -/
theorem witness_GetByteReadsItsRegion :
    (requestOf 0x00).op = 0x00 ∧
    (atEnds (fun a => a.toNat < 0x2000) 0x0000 0x1FFF) ∧
    (atEnds (fun a => 0x2000 ≤ a.toNat ∧ a.toNat < 0x4000 ∧ a.toNat % 8 = config.oamDataSel.toNat) 0x2004 0x3FFC) ∧
    (atEnds (fun a => 0x2000 ≤ a.toNat ∧ a.toNat < 0x4000 ∧ a.toNat % 8 ≠ config.oamDataSel.toNat) 0x2000 0x3FFF) ∧
    (atEnds (fun a => 0x4000 ≤ a.toNat ∧ a.toNat < 0x8000) 0x4000 0x7FFF) ∧
    (atEnds (fun a => 0x8000 ≤ a.toNat ∧ a.toNat - 0x8000 < config.rom.size) 0x8000 0xFFFF) ∧
    (atEnds (fun a => 0x8000 ≤ a.toNat ∧ (shortRom .mirror).rom.size ≤ a.toNat - 0x8000) 0xC000 0xFFFF) ∧
    (shortRom .mirror).romRange = .mirror ∧ (shortRom .fault).romRange = .fault := by decide

theorem witness_GetWordReadsLowThenHigh :
    (requestOf 0x01).op = 0x01 ∧
    (Readable config 0xFFFE ∧ Advances config 0xFFFE 1 ∧ Readable config (0xFFFE + 1)) ∧
    (Readable wrapping 0xFFFF ∧ Advances wrapping 0xFFFF 1 ∧ Readable wrapping (0xFFFF + 1)) ∧
    ¬ Readable (shortRom .fault) 0xC000 ∧
    (Readable config 0xFFFF ∧ ¬ Advances config 0xFFFF 1) ∧
    (Readable (shortRom .fault) 0xBFFF ∧ Advances (shortRom .fault) 0xBFFF 1 ∧
      ¬ Readable (shortRom .fault) (0xBFFF + 1)) := by decide

/-- The two byte reads at 0x7FFF (the unimplemented region) and 0x8000 (ROM). -/
theorem witness_WordReadIsTwoByteReads :
    (0x7FFF : Addr) ≠ 0xFFFF ∧ isNext (exec (.getByte 0x7FFF) (at' config)) = true ∧
    responseOf (.getByte 0x7FFF) (at' config) = some (.byte 0x00) ∧
    isNext (exec (.getByte (0x7FFF + 1)) (after (.getByte 0x7FFF) (at' config))) = true ∧
    responseOf (.getByte (0x7FFF + 1)) (after (.getByte 0x7FFF) (at' config)) = some (.byte 0xA0) := by decide

theorem witness_SetByteStoresInWorkRam :
    (at' config).wram.wf = true ∧ (0x0000 : Addr).toNat < 0x2000 ∧ (0x1FFF : Addr).toNat < 0x2000 := by decide

theorem witness_SetByteElsewhereIsDiscarded :
    (atEnds (fun a => 0x4000 ≤ a.toNat ∧ a.toNat < 0x8000) 0x4000 0x7FFF) ∧
    (atEnds (fun a => 0x8000 ≤ a.toNat) 0x8000 0xFFFF) := by decide

theorem witness_OamAddressWriteLatches :
    atEnds (fun a => 0x2000 ≤ a.toNat ∧ a.toNat < 0x4000 ∧ a.toNat % 8 = config.oamAddrSel.toNat)
        0x2003 0x3FFB := by decide

theorem witness_OamDataWriteCommitsAndAdvances :
    config.oamAddrSel ≠ config.oamDataSel ∧
    atEnds (fun a => 0x2000 ≤ a.toNat ∧ a.toNat < 0x4000 ∧ a.toNat % 8 = config.oamDataSel.toNat)
        0x2004 0x3FFC := by decide

theorem witness_OtherRegisterWritesAreHandedOut :
    atEnds (fun a => 0x2000 ≤ a.toNat ∧ a.toNat < 0x4000 ∧ a.toNat % 8 ≠ config.oamAddrSel.toNat ∧
        a.toNat % 8 ≠ config.oamDataSel.toNat)
        0x2000 0x3FFF := by decide

theorem witness_SetWordIsTwoByteWrites :
    (requestOf 0x03).op = 0x03 ∧ config.setWordMode = .sameAddress ∧
    (splitting.setWordMode = .split ∧ Advances splitting 0xFFFE 1) ∧
    (Advances { splitting with addrOverflow := .wrap } 0xFFFF 1) ∧ splitting.addrOverflow = .fault := by decide

theorem witness_SetWordInWorkRamByMode :
    (at' config).wram.wf = true ∧ config.setWordMode = .sameAddress ∧ (0x1FFF : Addr).toNat < 0x2000 ∧
    (at' splitting).wram.wf = true ∧ splitting.setWordMode = .split ∧ (0x1FFE : Addr).toNat < 0x1FFF := by decide

theorem witness_SetWordAtTheOamRegisters :
    config.oamAddrSel = 3 ∧ config.oamDataSel = 4 ∧ config.setWordMode = .sameAddress ∧
    splitting.oamAddrSel = 3 ∧ splitting.oamDataSel = 4 ∧ splitting.setWordMode = .split := by decide

theorem witness_MirrorsOfWorkRamAreOneCell :
    (at' config).wram.wf = true ∧ (0x07FF : Addr).toNat < 0x2000 ∧ (0x1FFF : Addr).toNat < 0x2000 ∧
    (0x07FF : Addr).toNat % 0x800 = (0x1FFF : Addr).toNat % 0x800 := by decide

theorem witness_PushByteStoresThenDecrements : (requestOf 0x04).op = 0x04 ∧ (at' config 0 0x00).wram.wf = true := by decide
theorem witness_PushWordStoresHighThenLow : (requestOf 0x05).op = 0x05 ∧ (at' config 0 0x00).wram.wf = true := by decide
theorem witness_PopsIncrementThenRead : (requestOf 0x06).op = 0x06 ∧ (requestOf 0x07).op = 0x07 := by decide
theorem witness_StackRoundTrips : (at' config 0 0x00).wram.wf = true ∧ (at' config 0 0x01).wram.wf = true := by decide
theorem witness_StackPointerWraps : (at' config 0 0x00).sp = 0x00 ∧ (at' config 0 0xFF).sp = 0xFF := by decide

theorem witness_IncrementByteFetches :
    (requestOf 0x08).op = 0x08 ∧ (Readable config 0xFFFE ∧ Advances config 0xFFFE 1) ∧
    (Readable wrapping 0xFFFF ∧ Advances wrapping 0xFFFF 1) ∧ ¬ Readable (shortRom .fault) 0xC000 ∧
    (Readable config 0xFFFF ∧ config.addrOverflow = .fault) := by decide

theorem witness_IncrementWordFetches :
    (requestOf 0x09).op = 0x09 ∧
    (Readable config 0xFFFD ∧ Readable config (0xFFFD + 1) ∧ Advances config 0xFFFD 2) ∧
    (Readable wrapping 0xFFFF ∧ Readable wrapping (0xFFFF + 1) ∧ Advances wrapping 0xFFFF 2) ∧
    exec (.getWord 0xFFFF) (at' config 0xFFFF) = .next (raiseFault (.addrOverflow 0xFFFF) (at' config 0xFFFF)) ∧
    (Readable config 0xFFFE ∧ Readable config (0xFFFE + 1) ∧ config.addrOverflow = .fault) :=
  ⟨by decide, by decide, by decide, exec_getWord_of_error (readWord_advance_error (by decide) (by decide)), by decide⟩

theorem witness_FetchSeesEarlierWrites :
    (at' config 0x07FF).wram.wf = true ∧ (0x1FFF : Addr).toNat < 0x2000 ∧ (at' config 0x07FF).pc.toNat < 0x2000 ∧
    (0x1FFF : Addr).toNat % 0x800 = (at' config 0x07FF).pc.toNat % 0x800 := by decide

theorem witness_TileDecodeCombinesThePlanes :
    (requestOf 0x18).op = 0x18 ∧ 16 * 1 + 16 ≤ config.tileMem.size ∧ config.tileMem.size < 16 * 2 + 16 := by decide

/-- Tile 0 of a memory of two tiles is all 0x00; tile 1 has eight 0xFF bytes and eight 0x00 bytes. -/
theorem witness_UniformRecordsDecodeUniformly :
    let mem : ByteSeq := { size := 32, cells := (List.range 8).map fun k => (16 + k, 0xFF) }
    (16 * 0 + 16 ≤ mem.size ∧ ∀ k, k < 16 → mem.cells.read (16 * 0 + k) = 0x00) ∧
    (16 * 1 + 16 ≤ mem.size ∧ (∀ k, k < 8 → mem.cells.read (16 * 1 + k) = 0xFF) ∧
      ∀ k, 8 ≤ k → k < 16 → mem.cells.read (16 * 1 + k) = 0x00) := by
  refine ⟨⟨by decide, by decide⟩, by decide, by decide, fun k h h' => ?_⟩
  interval_cases k <;> rfl

theorem witness_GridAccessors :
    (requestOf 0x19).op = 0x19 ∧ (requestOf 0x1B).op = 0x1B ∧ ((8 : Nat) ≤ 8 ∨ (8 : Nat) ≤ 0) ∧
    ((8 : Nat) ≤ 7 ∨ (8 : Nat) ≤ 8) := by decide

theorem witness_ColorizeMapsEveryCell :
    (requestOf 0x1A).op = 0x1A ∧ (∀ k : Fin 4, (#v[0, 63, 63, 0] : PaletteSelection)[k].toNat < 64) ∧
    64 ≤ (#v[63, 64, 255, 0] : PaletteSelection)[(1 : Fin 4)].toNat ∧
    (∀ j : Fin 4, j < 1 → (#v[63, 64, 255, 0] : PaletteSelection)[j].toNat < 64) := by decide

theorem witness_OamReadDispatchesOnTheField :
    (requestOf 0x10).op = 0x10 ∧ (0 : Byte).toNat = 4 * (0 : Fin 64).val ∧ (253 : Byte).toNat = 4 * (63 : Fin 64).val + 1 ∧
    (254 : Byte).toNat = 4 * (63 : Fin 64).val + 2 ∧ (255 : Byte).toNat = 4 * (63 : Fin 64).val + 3 := by decide

theorem witness_OamWriteReplacesOneField : (requestOf 0x11).op = 0x11 := by decide

theorem witness_OamSyncActsOnTheIntent :
    (requestOf 0x12).op = 0x12 ∧ (withOam 0xFF .writeOamAddr 0).intent = .writeOamAddr ∧
    (withOam 0xFF .writeOamData 0).intent = .writeOamData ∧ (withOam 0xFF .idle 0).intent = .idle ∧
    (withOam 0xFF .reserved 0).intent = .reserved := by decide

theorem witness_SyncLeavesTheLatchInvariant :
    isNext (exec .oamSync (withOam 0xFF .writeOamAddr 0)) = true ∧
    isNext (exec .oamSync (withOam 0xFF .writeOamData 0)) = true ∧
    (atEnds (fun a => 0x2000 ≤ a.toNat ∧ a.toNat < 0x4000 ∧
        (a.toNat % 8 = (at' config).cfg.oamAddrSel.toNat ∨ a.toNat % 8 = (at' config).cfg.oamDataSel.toNat) ∧
        isNext (exec (.setByte a 0xFF) (at' config)) = true)
        0x2003 0x3FFC) := by decide

/-- Startup with one input: a write to each OAM register, a direct write at another OAM byte, a sync, a write of the
external CPU, a reserved code; and the direct write at `oam_addr`, after which the latch is stale. -/
theorem witness_OnlyADirectOamWriteBreaksTheLatch :
    (∀ i ∈ [request (.setByte 0x2003 2), request (.setByte 0x3FFC 7), request (.oamWrite 255 7), request .oamSync,
        .cpuWritesS 7, .request (requestOf 0x0A), request (.oamWrite 0 7)],
      let s := { State.init config with inputs := [i] }
      s.oamData = oamGet s s.oamAddr ∧ isNext (step s) = true ∧ (stepped s).fault = none) ∧
    (let t := stepped { State.init config with inputs := [request (.oamWrite 0 7)] }
     t.oamData ≠ oamGet t t.oamAddr) := by decide

/-- A state whose inputs are 256 writes of 0xFF to the OAM data register. -/
theorem witness_SequentialUploadFillsOam :
    let s := { at' config with
      inputs := (Vector.replicate 256 0xFF).toList.map fun v => request (.setByte 0x2004 v) }
    s.fault = none ∧ s.cfg.oamAddrSel ≠ s.cfg.oamDataSel ∧ 0x2000 ≤ (0x2004 : Addr).toNat ∧
    (0x2004 : Addr).toNat < 0x4000 ∧ (0x2004 : Addr).toNat % 8 = s.cfg.oamDataSel.toNat ∧
    s.inputs = (Vector.replicate 256 0xFF).toList.map fun v => .request (encode (.setByte 0x2004 v)) :=
  ⟨rfl, by decide, by decide, by decide, by decide, rfl⟩

theorem witness_DirectOamWriteLeavesTheLatchStale :
    atEnds (fun a => 0x2000 ≤ a.toNat ∧ a.toNat < 0x4000 ∧ a.toNat % 8 = (at' config).cfg.oamDataSel.toNat)
        0x2004 0x3FFC := by decide

theorem witness_AttributeCodecFields : (requestOf 0x1C).op = 0x1C ∧ (requestOf 0x1D).op = 0x1D := by decide

end Sys2Proof.Tests
end

section
/-! PROOFS. The block's invariant at startup and over one step, and what a step serves (00_scope.md). -/

namespace Sys2Proof.Machine

variable {s t u : State} {i : Instr}

/-! ### What an unfaulted block keeps -/

/-- What `State.Inv` asks of a block that no fault has stopped (R31, R49, R310). -/
structure State.Sound (s : State) : Prop where
  wram_wf     : s.wram.wf = true
  wram_within : s.wram.within 0x800 = true
  intent_idle : s.intent = .idle
  diag_legal  : s.diag.all DiagEvent.legal = true

theorem State.inv_iff : s.Inv ↔ s.cfg.wf = true ∧ (s.fault = none → s.Sound) :=
  and_congr_right fun _ => imp_congr_right fun _ =>
    ⟨fun ⟨hwf, hin, hidle, hdiag⟩ => ⟨hwf, hin, hidle, hdiag⟩,
      fun ⟨hwf, hin, hidle, hdiag⟩ => ⟨hwf, hin, hidle, hdiag⟩⟩

/-- `Sound` speaks of work RAM, `intent` and the diagnostics only. -/
theorem State.Sound.congr (h : s.Sound) (hw : t.wram = s.wram) (hi : t.intent = s.intent) (hd : t.diag = s.diag) :
    t.Sound :=
  ⟨hw ▸ h.wram_wf, hw ▸ h.wram_within, hi ▸ h.intent_idle, hd ▸ h.diag_legal⟩

/-! ### The shared operations keep it -/

/-- A read's diagnostic names an unimplemented address (R62). -/
theorem readDiag_legal (a : Addr) : (readDiag a).all DiagEvent.legal = true := by
  unfold readDiag
  split
  · next h => simp [DiagEvent.legal, region_unimplemented h.1 h.2]
  · rfl

/-- A write's diagnostic names an unimplemented address or a ROM address, as its kind says (R63). -/
theorem writeDiag_legal (a : Addr) : (writeDiag a).all DiagEvent.legal = true := by
  unfold writeDiag
  split
  · next h => simp [DiagEvent.legal, region_programRom h]
  · next h =>
    split
    · next h' => simp [DiagEvent.legal, region_unimplemented h' (Nat.lt_of_not_le h)]
    · rfl

theorem State.Sound.afterRead (h : s.Sound) (a : Addr) : (afterRead a s).Sound where
  wram_wf     := h.wram_wf
  wram_within := h.wram_within
  intent_idle := h.intent_idle
  diag_legal  := by rw [afterRead_diag, List.all_append, h.diag_legal, readDiag_legal]; rfl

theorem State.Sound.memWrite (h : s.Sound) (a : Addr) (v : Byte) : (memWrite a v s).Sound where
  wram_wf     := memWrite_wram_wf a v h.wram_wf
  wram_within := memWrite_wram_within a v h.wram_within
  intent_idle := memWrite_intent a v h.intent_idle
  diag_legal  := by rw [memWrite_diag, List.all_append, h.diag_legal, writeDiag_legal]; rfl

/-- A push stores in the stack page, which lies in work RAM (R72, R140). -/
theorem State.Sound.pushStack (h : s.Sound) (v : Byte) : (pushStack v s).Sound :=
  (h.memWrite (stackAddr s.sp) v).congr rfl rfl rfl

theorem State.Sound.syncOam (h : s.Sound) : (syncOam s).Sound := by
  rw [syncOam_frame]
  exact h.congr rfl h.intent_idle.symm rfl

/-! ### Every operation keeps it -/

theorem LeavesUpToResponse.sound (hu : LeavesUpToResponse i s u) (h : s.Sound) : u.Sound := by
  cases i <;> simp only [LeavesUpToResponse] at hu
  case getByte a => exact hu ▸ h.afterRead a
  case getWord a => exact hu ▸ (h.afterRead a).afterRead (a + 1)
  case setByte a v => exact hu ▸ h.memWrite a v
  case setWord a w =>
    have low := h.memWrite a (lowByte w)
    rcases hu with ⟨-, rfl⟩ | ⟨-, rfl⟩
    · exact low.memWrite a (highByte w)
    · exact low.memWrite (a + 1) (highByte w)
  case pushByte v => rw [hu, ← pushStack_eq]; exact h.pushStack v
  case pushWord w =>
    have push := (h.pushStack (highByte w)).pushStack (lowByte w)
    rw [pushStack_eq, pushStack_eq] at push
    exact hu ▸ push
  case incrementByte => exact hu ▸ (h.afterRead s.pc).congr rfl rfl rfl
  case incrementWord => exact hu ▸ ((h.afterRead s.pc).afterRead (s.pc + 1)).congr rfl rfl rfl
  case oamSync => exact hu ▸ h.syncOam
  all_goals exact hu ▸ h.congr rfl rfl rfl

/-- An operation that answers keeps the invariant by its frame; one that faults leaves only the parameters to keep
(R300, R357). -/
theorem exec_keeps_inv (hs : s.Inv) (h : exec i s = .next t) : t.Inv := by
  rw [State.inv_iff] at hs ⊢
  obtain ⟨hcfg, hsound⟩ := hs
  rcases exec_inversion h with ⟨r, u, rfl, -, hu⟩ | ⟨f, rfl, -⟩
  · obtain ⟨hfault, hc, -, -⟩ := hu.ports
    have hu_sound : u.fault = none → u.Sound := fun hn => hu.sound (hsound (hfault ▸ hn))
    exact ⟨hc ▸ hcfg, fun hn => (hu_sound hn).congr rfl rfl rfl⟩
  · exact ⟨hcfg, nofun⟩

/-- Settles O4, by the five ways a step can end (`step_cases`). -/
theorem everyStepKeepsTheBlockInvariant : Obligations.EveryStepKeepsTheBlockInvariant := by
  intro s t hs h
  -- No field that `State.Inv` reads is one that taking an input, a write of `PC` or `S`, or a refusal changes.
  have taken (rest : List Input) : (takeInput rest s).Inv := hs
  obtain ⟨-, ⟨-, rfl⟩ | ⟨v, rest, -, rfl⟩ | ⟨v, rest, -, rfl⟩ | ⟨r, rest, i, -, -, hexec⟩ | ⟨r, rest, op, -, -, rfl⟩⟩ :=
    step_cases h
  · exact hs
  · exact taken rest
  · exact taken rest
  · exact exec_keeps_inv (taken rest) hexec
  · exact taken rest

/-! ### Startup -/

/-- The parameters' ranges make `WRAM_INIT` 2048 bytes in canonical form (R12). -/
theorem wramInit_of_wf {c : Config} (h : c.wf = true) : c.wramInit.wf = true ∧ c.wramInit.within 0x800 = true := by
  simp only [Config.wf, Bool.and_eq_true] at h
  obtain ⟨⟨-, hwf⟩, hwithin⟩ := h
  exact ⟨hwf, hwithin⟩

theorem init_inv {c : Config} (h : c.wf = true) : (State.init c).Inv := by
  obtain ⟨hwf, hwithin⟩ := wramInit_of_wf h
  exact ⟨h, fun _ => ⟨hwf, hwithin, rfl, rfl⟩⟩

theorem atReset_wf : Config.atReset.wf = true := by decide

/-- Settles O3: `State.reset` is the state after startup under one configuration in range. -/
theorem resetMeetsTheBlockInvariant : Obligations.ResetMeetsTheBlockInvariant :=
  ⟨init_inv atReset_wf, fun _ => init_inv⟩

/-! ### What a step serves -/

theorem step_idle (hf : s.fault = none) (hi : s.inputs = []) : step s = .next s := by
  simp only [step, hf, hi]

theorem step_request {r : Request} {rest : List Input} (hf : s.fault = none) (hi : s.inputs = .request r :: rest)
    (hd : decode r = .ok i) : step s = exec i (takeInput rest s) := by
  simp only [step, hf, hi, hd]

/-- Settles O22, from the two branches of `step` that it names. -/
theorem stepRunsTheDecodedRequest : Obligations.StepRunsTheDecodedRequest :=
  ⟨fun _ _ _ _ hf hi hd _ => step_request hf hi hd, fun _ => step_idle⟩

end Sys2Proof.Machine
end

section
/-! PROOFS. What the fields of the state keep: the fault record (R46, R300), the diagnostics (R47), `S` (R35), work RAM
(R31) and OAM with its registers (R37 to R40). -/

namespace Sys2Proof.Machine

variable {s t u : State} {i : Instr}

/-! ### The fault record -/

/-- A block that a fault has stopped serves no request (R300). -/
theorem step_stopped {f : FaultRecord} (h : s.fault = some f) : step s = .fault (.stopped f) := by
  simp only [step, h]

/-- From a state without a fault, an operation leaves the record set exactly when it answers with that fault (R300). -/
theorem exec_fault_iff_response {f : FaultRecord} (hs : s.fault = none) (h : exec i s = .next t) :
    t.fault = some f ↔ t.response = some (.fault f) := by
  rcases exec_inversion h with ⟨r, u, rfl, hr, hu⟩ | ⟨g, rfl, -⟩
  · obtain ⟨hfault, -, -, -⟩ := hu.ports
    simp [hfault, hs, hr f]
  · simp

/-- Settles O6, from the two ways an operation can end (`exec_inversion`). -/
theorem faultIsRecordedAndStopsTheBlock : Obligations.FaultIsRecordedAndStopsTheBlock := by
  refine ⟨fun _ => rfl, fun _ _ => ⟨rfl, rfl⟩, fun i s t f hs h => ?_, fun s f hf t h => ?_⟩
  · exact ⟨exec_fault_iff_response hs h, step_stopped⟩
  · rw [step_stopped hf] at h
    cases h

/-- An operation that leaves no fault record leaves what its rule says. -/
theorem exec_unfaulted (h : exec i s = .next t) (ht : t.fault = none) :
    ∃ r u, t = respond r u ∧ LeavesUpToResponse i s u := by
  rcases exec_inversion h with ⟨r, u, rfl, -, hu⟩ | ⟨f, rfl, -⟩
  · exact ⟨r, u, rfl, hu⟩
  · cases ht

/-! ### The stack pointer -/

theorem step_cpuWritesS {v : Byte} {rest : List Input} (hf : s.fault = none)
    (hi : s.inputs = .cpuWritesS v :: rest) : step s = .next (externalSWrite v (takeInput rest s)) := by
  simp only [step, hf, hi]

@[simp] theorem syncOam_sp (s : State) : (syncOam s).sp = s.sp := by rw [syncOam_frame]

/-- Settles O13: no shared operation but a push or a pop moves `S`. -/
theorem onlyStackOperationsMoveS : Obligations.OnlyStackOperationsMoveS := by
  refine ⟨fun i s t _ h ht => ?_, fun s v rest hf hi => step_cpuWritesS hf hi⟩
  obtain ⟨r, u, rfl, hu⟩ := exec_unfaulted h ht
  rw [respond_sp]
  cases i <;> simp only [LeavesUpToResponse] at hu ⊢
  case setWord a w => rcases hu with ⟨-, rfl⟩ | ⟨-, rfl⟩ <;> simp
  case pushWord w => subst hu; exact BitVec.sub_sub s.sp 1 1
  case popWord => subst hu; exact BitVec.add_assoc s.sp 1 1
  all_goals subst hu; simp

/-! ### Work RAM -/

/-- A byte write changes no cell but the one its address selects (R63). -/
theorem memWrite_changed {a : Addr} {v : Byte} {k : Nat} (hwf : s.wram.wf = true)
    (h : (memWrite a v s).wram.read k ≠ s.wram.read k) : a.toNat < 0x2000 ∧ k = wramIndex a := by
  rw [memWrite_wram] at h
  split at h
  · next ha => exact ⟨ha, by_contra fun hk => h (Memory.read_write_other hwf v hk)⟩
  · exact absurd rfl h

/-- A cell that two byte writes change is one that the first or the second changes. -/
theorem memWrite_memWrite_changed {a b : Addr} {v w : Byte} {k : Nat} (hwf : s.wram.wf = true)
    (h : (memWrite b w (memWrite a v s)).wram.read k ≠ s.wram.read k) :
    (a.toNat < 0x2000 ∧ k = wramIndex a) ∨ (b.toNat < 0x2000 ∧ k = wramIndex b) := by
  by_cases hb : (memWrite b w (memWrite a v s)).wram.read k = (memWrite a v s).wram.read k
  · exact .inl (memWrite_changed hwf (hb ▸ h))
  · exact .inr (memWrite_changed (memWrite_wram_wf a v hwf) hb)

/-- Settles O14: the stores of every operation are byte writes, those of a push at its stack slots. -/
theorem workRamChangesOnlyWhereStored : Obligations.WorkRamChangesOnlyWhereStored := by
  intro i s t k hwf _ h ht hk
  obtain ⟨r, u, rfl, hu⟩ := exec_unfaulted h ht
  rw [respond_wram] at hk
  cases i <;> simp only [LeavesUpToResponse] at hu ⊢
  case setByte a v => subst hu; exact memWrite_changed hwf hk
  case setWord a w =>
    rcases hu with ⟨-, rfl⟩ | ⟨hm, rfl⟩
    · exact .inl ((memWrite_memWrite_changed hwf hk).elim id id)
    · exact (memWrite_memWrite_changed hwf hk).imp_right fun ⟨ha, hk⟩ => ⟨hm, ha, hk⟩
  case pushByte v =>
    subst hu
    rw [wramIndex_stackAddr]
    exact by_contra fun h0 => hk (Memory.read_write_other hwf v h0)
  case pushWord w =>
    subst hu
    rw [wramIndex_stackAddr, wramIndex_stackAddr]
    by_contra h0
    obtain ⟨hhigh, hlow⟩ := not_or.1 h0
    exact hk ((Memory.read_write_other (Memory.wf_write hwf _ _) _ hlow).trans (Memory.read_write_other hwf _ hhigh))
  case oamSync => subst hu; rw [syncOam_frame] at hk; exact hk rfl
  all_goals subst hu; exact hk rfl

/-! ### OAM and its registers -/

/-- The addresses of the PPU window (R61). -/
abbrev InPpuWindow (a : Addr) : Prop := 0x2000 ≤ a.toNat ∧ a.toNat < 0x4000

/-- OAM, the latches and `intent` are as they were. -/
abbrev SameOam (s t : State) : Prop :=
  t.oam = s.oam ∧ t.oamAddr = s.oamAddr ∧ t.oamData = s.oamData ∧ t.intent = s.intent

theorem memWrite_memWrite_sameOam {a b : Addr} (v w : Byte) (ha : ¬ InPpuWindow a) (hb : ¬ InPpuWindow b) :
    SameOam s (memWrite b w (memWrite a v s)) := by
  obtain ⟨hoam, haddr, hdata, hintent⟩ := memWrite_oam_frame (s := s) v ha
  obtain ⟨hoam', haddr', hdata', hintent'⟩ := memWrite_oam_frame (s := memWrite a v s) w hb
  exact ⟨hoam'.trans hoam, haddr'.trans haddr, hdata'.trans hdata, hintent'.trans hintent⟩

/-- The operations that reach OAM, its latches or `intent`, the table's own `oam_write` left out (R211, R212, R240). -/
def ReachesOamRegisters (c : Config) (i : Instr) : Prop :=
  i = .oamSync ∨ (∃ a v, i = .setByte a v ∧ InPpuWindow a) ∨
    (∃ a w, i = .setWord a w ∧ (InPpuWindow a ∨ (c.setWordMode = .split ∧ InPpuWindow (a + 1))))

/-- Every other operation but `oam_write` leaves them as they were. -/
theorem LeavesUpToResponse.sameOam (hu : LeavesUpToResponse i s u) (hr : ¬ ReachesOamRegisters s.cfg i)
    (hw : ∀ k v, i ≠ .oamWrite k v) : SameOam s u := by
  obtain ⟨hsync, hwrites⟩ := not_or.1 hr
  obtain ⟨hbyte, hword⟩ := not_or.1 hwrites
  cases i <;> simp only [LeavesUpToResponse] at hu
  case setByte a v => exact hu ▸ memWrite_oam_frame v fun ha => hbyte ⟨a, v, rfl, ha⟩
  case setWord a w =>
    have ha : ¬ InPpuWindow a := fun ha => hword ⟨a, w, rfl, .inl ha⟩
    rcases hu with ⟨-, rfl⟩ | ⟨hm, rfl⟩
    · exact memWrite_memWrite_sameOam _ _ ha ha
    · exact memWrite_memWrite_sameOam _ _ ha fun hb => hword ⟨a, w, rfl, .inr ⟨hm, hb⟩⟩
  case oamWrite k v => exact absurd rfl (hw k v)
  case oamSync => exact absurd rfl hsync
  all_goals exact hu ▸ ⟨rfl, rfl, rfl, rfl⟩

/-- Settles O15: `oam_write` changes the table only, and every other operation that does not reach the registers changes
nothing of OAM. -/
theorem oamChangesOnlyThroughItsRegisters : Obligations.OamChangesOnlyThroughItsRegisters := by
  intro i s t _ h ht
  obtain ⟨r, u, rfl, hu⟩ := exec_unfaulted h ht
  by_cases hr : ReachesOamRegisters s.cfg i
  · exact .inr hr
  by_cases hw : ∃ k v, i = .oamWrite k v
  · obtain ⟨k, v, rfl⟩ := hw
    obtain rfl : u = oamSet k v s := hu
    exact .inl ⟨rfl, rfl, rfl, .inr ⟨k, v, rfl⟩⟩
  · obtain ⟨hoam, haddr, hdata, hintent⟩ := hu.sameOam hr fun k v hi => hw ⟨k, v, hi⟩
    exact .inl ⟨haddr, hdata, hintent, .inl hoam⟩

/-! ### The diagnostics -/

/-- The state with other diagnostics. -/
def State.withDiag (d : List DiagEvent) (s : State) : State := { s with diag := d }

/-- What the steps of a request answer, with other diagnostics in the state they leave. -/
def answerWithDiag {α : Type} (d : List DiagEvent) (p : Except FaultRecord (α × State)) :
    Except FaultRecord (α × State) :=
  p.map fun q => (q.1, q.2.withDiag d)

/-- Both outcomes are next states, and these differ only in the diagnostics. -/
def EndAlikeButDiag (o p : Host.Outcome State Fault Refusal) : Prop :=
  ∃ t u : State, o = .next t ∧ p = .next u ∧ { t with diag := [] } = { u with diag := [] }

variable (d : List DiagEvent)

theorem respond_endAlike (r : Response) (e : List DiagEvent) (t : State) :
    EndAlikeButDiag (.next (respond r t)) (.next (respond r (t.withDiag e))) :=
  ⟨_, _, rfl, rfl, rfl⟩

/-- Nothing that ends a request reads the diagnostics. -/
theorem serve_endAlike {α : Type} (r : α → Response) (e : List DiagEvent) (p : Except FaultRecord (α × State)) :
    EndAlikeButDiag (serve s r p) (serve (s.withDiag d) r (answerWithDiag e p)) := by
  cases p with
  | ok q => exact respond_endAlike (r q.1) e q.2
  | error f => exact ⟨_, _, rfl, rfl, rfl⟩

/-- Nor does a request whose steps leave the state alone. -/
theorem serve_pure_endAlike {α β : Type} (r : β → Response) (g : α → β) (p : Except FaultRecord α) :
    EndAlikeButDiag (serve s r (p.map fun v => (g v, s)))
      (serve (s.withDiag d) r (p.map fun v => (g v, s.withDiag d))) := by
  cases p with
  | ok v => exact respond_endAlike (r (g v)) d s
  | error f => exact ⟨_, _, rfl, rfl, rfl⟩

/-! Each shared operation leaves other diagnostics in the place of the ones it was given, and appends its own. -/

theorem memRead_withDiag (a : Addr) (s : State) :
    memRead a (s.withDiag d) = answerWithDiag (d ++ readDiag a) (memRead a s) := by
  by_cases h : Readable s.cfg a
  · rw [memRead_ok h, memRead_ok (s := s.withDiag d) h]; rfl
  · rw [memRead_error h, memRead_error (s := s.withDiag d) h]; rfl

theorem readWord_withDiag (a : Addr) (s : State) :
    readWord a (s.withDiag d) = answerWithDiag (d ++ readDiag a ++ readDiag (a + 1)) (readWord a s) := by
  by_cases h : Readable s.cfg a
  · by_cases h1 : Advances s.cfg a 1
    · by_cases h2 : Readable s.cfg (a + 1)
      · rw [readWord_ok h h1 h2, readWord_ok (s := s.withDiag d) h h1 h2]; rfl
      · rw [readWord_high_error h h1 h2, readWord_high_error (s := s.withDiag d) h h1 h2]; rfl
    · rw [readWord_advance_error h h1, readWord_advance_error (s := s.withDiag d) h h1]; rfl
  · rw [readWord_low_error h, readWord_low_error (s := s.withDiag d) h]; rfl

theorem syncOam_withDiag (s : State) : syncOam (s.withDiag d) = (syncOam s).withDiag d := by
  have hintent : (s.withDiag d).intent = s.intent := rfl
  simp only [syncOam, hintent]
  cases s.intent <;> rfl

theorem ppuRegWrite_withDiag (a : Addr) (v : Byte) (s : State) :
    ppuRegWrite a v (s.withDiag d) = (ppuRegWrite a v s).withDiag d := by
  by_cases h : a.toNat % 8 = s.cfg.oamAddrSel.toNat
  · rw [ppuRegWrite_address v h, ppuRegWrite_address (s := s.withDiag d) v h]; rfl
  · by_cases h' : a.toNat % 8 = s.cfg.oamDataSel.toNat
    · rw [ppuRegWrite_data v h h', ppuRegWrite_data (s := s.withDiag d) v h h']; rfl
    · rw [ppuRegWrite_other v h h', ppuRegWrite_other (s := s.withDiag d) v h h']; rfl

theorem memWrite_withDiag (a : Addr) (v : Byte) (s : State) :
    memWrite a v (s.withDiag d) = (memWrite a v s).withDiag (d ++ writeDiag a) := by
  unfold writeDiag
  rcases region_cases a with ⟨-, h⟩ | ⟨-, h, h'⟩ | ⟨-, h, h'⟩ | ⟨-, h⟩
  · rw [memWrite_workRam h, memWrite_workRam h, if_neg (by omega), if_neg (by omega), List.append_nil]; rfl
  · rw [memWrite_ppuWindow h h', memWrite_ppuWindow h h', if_neg (by omega), if_neg (by omega), List.append_nil,
      ppuRegWrite_withDiag]
  · rw [memWrite_unimplemented h h', memWrite_unimplemented h h', if_neg (by omega), if_pos h]; rfl
  · rw [memWrite_programRom h, memWrite_programRom h, if_pos h]; rfl

theorem writeWord_withDiag (a : Addr) (w : Word) (s : State) :
    ∃ e, writeWord a w (s.withDiag d) = answerWithDiag e (writeWord a w s) := by
  cases hm : s.cfg.setWordMode with
  | sameAddress =>
    rw [writeWord_sameAddress a w hm, writeWord_sameAddress (s := s.withDiag d) a w hm, memWrite_withDiag,
      memWrite_withDiag]
    exact ⟨_, rfl⟩
  | split =>
    by_cases h : Advances s.cfg a 1
    · rw [writeWord_split w hm h, writeWord_split (s := s.withDiag d) w hm h, memWrite_withDiag, memWrite_withDiag]
      exact ⟨_, rfl⟩
    · rw [writeWord_split_error w hm h, writeWord_split_error (s := s.withDiag d) w hm h]
      exact ⟨d, rfl⟩

/-! The two fetches, over every way that they end (R160, R161). -/

theorem incrementByte_endAlike (s : State) :
    EndAlikeButDiag (exec .incrementByte s) (exec .incrementByte (s.withDiag d)) := by
  by_cases h : Readable s.cfg s.pc
  · by_cases h1 : Advances s.cfg s.pc 1
    · exact ⟨_, _, exec_incrementByte_ok h h1, exec_incrementByte_ok (s := s.withDiag d) h h1, rfl⟩
    · exact ⟨_, _, exec_incrementByte_advance_error h h1,
        exec_incrementByte_advance_error (s := s.withDiag d) h h1, rfl⟩
  · exact ⟨_, _, exec_incrementByte_read_error h, exec_incrementByte_read_error (s := s.withDiag d) h, rfl⟩

theorem incrementWord_endAlike (s : State) :
    EndAlikeButDiag (exec .incrementWord s) (exec .incrementWord (s.withDiag d)) := by
  have read := readWord_withDiag d s.pc s
  cases hp : readWord s.pc s with
  | ok q =>
    rw [hp] at read
    by_cases h : Advances s.cfg s.pc 2
    · exact ⟨_, _, exec_incrementWord_ok hp h, exec_incrementWord_ok (s := s.withDiag d) read h, rfl⟩
    · exact ⟨_, _, exec_incrementWord_advance_error hp h,
        exec_incrementWord_advance_error (s := s.withDiag d) read h, rfl⟩
  | error f =>
    rw [hp] at read
    exact ⟨_, _, exec_incrementWord_read_error hp, exec_incrementWord_read_error (s := s.withDiag d) read, rfl⟩

/-- Settles O11, operation by operation: the shared operations it runs only carry the diagnostics along, and neither its
response nor its fault reads them. -/
theorem diagnosticsChangeNothing : Obligations.DiagnosticsChangeNothing := by
  intro i s d
  change EndAlikeButDiag (exec i s) (exec i (s.withDiag d))
  cases i with
  | getByte a =>
    simp only [exec, execGetByte, memRead_withDiag]
    exact serve_endAlike d _ _ _
  | getWord a =>
    simp only [exec, execGetWord, readWord_withDiag]
    exact serve_endAlike d _ _ _
  | setByte a v =>
    rw [exec_setByte, exec_setByte, memWrite_withDiag]
    exact respond_endAlike _ _ _
  | setWord a w =>
    obtain ⟨e, he⟩ := writeWord_withDiag d a w s
    simp only [exec, execSetWord, he]
    exact serve_endAlike d _ _ _
  | pushByte v => exact ⟨_, _, exec_pushByte v s, exec_pushByte v _, rfl⟩
  | pushWord w => exact ⟨_, _, exec_pushWord w s, exec_pushWord w _, rfl⟩
  | popByte => exact ⟨_, _, exec_popByte s, exec_popByte _, rfl⟩
  | popWord => exact ⟨_, _, exec_popWord s, exec_popWord _, rfl⟩
  | incrementByte => exact incrementByte_endAlike d s
  | incrementWord => exact incrementWord_endAlike d s
  | oamRead k => exact respond_endAlike _ d s
  | oamWrite k v => exact respond_endAlike .done d (oamSet k v s)
  | oamSync =>
    rw [exec_oamSync, exec_oamSync, syncOam_withDiag]
    exact respond_endAlike _ _ _
  | tileDecode n => exact serve_pure_endAlike d _ _ _
  | tileGet T x y => exact serve_pure_endAlike d _ _ _
  | colorize T pal => exact serve_pure_endAlike d _ _ _
  | coloredGet C x y => exact serve_pure_endAlike d _ _ _
  | attrDecode b => exact respond_endAlike _ d s
  | attrEncode q => exact respond_endAlike _ d s

end Sys2Proof.Machine
end

section
/-! PROOFS. The CPU address space: the map of its regions (R61), a byte read in each of them (R62, R120, R244), and the
mirrors of work RAM as a read and a fetch see them (R64, R163). -/

namespace Sys2Proof.Machine

variable {s : State} {a b : Addr}

/-! ### The address map -/

/-- The four ranges partition the address space, so the region of an address names its range (R61). -/
theorem region_eq_iff_range (a : Addr) :
    (region a = .workRam ↔ a.toNat ≤ 0x1FFF) ∧
    (region a = .ppuWindow ↔ 0x2000 ≤ a.toNat ∧ a.toNat ≤ 0x3FFF) ∧
    (region a = .unimplemented ↔ 0x4000 ≤ a.toNat ∧ a.toNat ≤ 0x7FFF) ∧
    (region a = .programRom ↔ 0x8000 ≤ a.toNat) := by
  rcases region_cases a with ⟨hr, hrange⟩ | ⟨hr, hrange⟩ | ⟨hr, hrange⟩ | ⟨hr, hrange⟩ <;>
    simp only [hr, reduceCtorEq, true_iff, false_iff] <;> omega

/-- In the ROM window, the low 15 bits of an address are its distance from the window's start. -/
theorem romOffset_programRom (h : 0x8000 ≤ a.toNat) : romOffset a = a.toNat - 0x8000 := by
  have := a.isLt
  rw [romOffset_eq]
  omega

/-- Settles O23, from the ranges of the regions and the two index formats. -/
theorem addressMapOfTheCpuSpace : Obligations.AddressMapOfTheCpuSpace := by
  intro a
  obtain ⟨hram, hppu, hunimplemented, hrom⟩ := region_eq_iff_range a
  exact ⟨hram, hppu, hunimplemented, hrom, wramIndex_eq a, romOffset_programRom⟩

/-! ### A byte read in each region -/

theorem memRead_ppuWindow (h : 0x2000 ≤ a.toNat) (h' : a.toNat < 0x4000) (s : State) :
    memRead a s = .ok (ppuRegRead a s) := by
  simp only [memRead, region_ppuWindow h h']

theorem memRead_unimplemented (h : 0x4000 ≤ a.toNat) (h' : a.toNat < 0x8000) (s : State) :
    memRead a s = .ok (0x00, emitDiag .unmappedRead a s) := by
  simp only [memRead, region_unimplemented h h']

theorem memRead_programRom (h : 0x8000 ≤ a.toNat) (s : State) :
    memRead a s = (romRead s.cfg a).map fun v => (v, s) := by
  simp only [memRead, region_programRom h]

theorem romRead_inRange {c : Config} (h : 0x8000 ≤ a.toNat) (hin : a.toNat - 0x8000 < c.rom.size) :
    romRead c a = .ok (c.rom.cells.read (a.toNat - 0x8000)) := by
  simp only [romRead, romOffset_programRom h, if_pos hin]

theorem romRead_mirror {c : Config} (h : 0x8000 ≤ a.toNat) (hout : c.rom.size ≤ a.toNat - 0x8000)
    (hm : c.romRange = .mirror) : romRead c a = .ok (c.rom.cells.read ((a.toNat - 0x8000) % c.rom.size)) := by
  simp only [romRead, romOffset_programRom h, if_neg (Nat.not_lt.2 hout), hm]

theorem romRead_fault {c : Config} (h : 0x8000 ≤ a.toNat) (hout : c.rom.size ≤ a.toNat - 0x8000)
    (hf : c.romRange = .fault) : romRead c a = .error (.romRange a) := by
  simp only [romRead, romOffset_programRom h, if_neg (Nat.not_lt.2 hout), hf]

theorem exec_getByte_of_memRead {v : Byte} {u : State} (h : memRead a s = .ok (v, u)) :
    exec (.getByte a) s = .next (respond (.byte v) u) := by
  simp only [exec, execGetByte, h, serve_ok]

/-- A byte read in the ROM window that finds its byte changes nothing. -/
theorem exec_getByte_of_romRead {v : Byte} (h : 0x8000 ≤ a.toNat) (hv : romRead s.cfg a = .ok v) :
    exec (.getByte a) s = .next (respond (.byte v) s) :=
  exec_getByte_of_memRead (by rw [memRead_programRom h, hv]; rfl)

theorem exec_getByte_of_romRead_error {f : FaultRecord} (h : 0x8000 ≤ a.toNat) (hf : romRead s.cfg a = .error f) :
    exec (.getByte a) s = .next (raiseFault f s) := by
  rw [exec, execGetByte, memRead_programRom h, hf]
  rfl

theorem decode_getByte {r : Request} (h : r.op = 0x00) : decode r = .ok (.getByte r.a) := by
  rw [decode, h]
  rfl

/-- A byte read of work RAM answers the cell and changes nothing else. -/
theorem exec_getByte_workRam (h : a.toNat < 0x2000) (s : State) :
    exec (.getByte a) s = .next (respond (.byte (s.wram.read (wramIndex a))) s) :=
  exec_getByte_of_memRead (memRead_workRam h s)

/-- Settles O24, region by region. -/
theorem getByteReadsItsRegion : Obligations.GetByteReadsItsRegion := by
  refine ⟨fun r => decode_getByte, fun s a => ⟨fun h => ?_, fun h h' hd => ?_, fun h h' hd => ?_, fun h h' => ?_,
    fun h hin => ?_, fun h hout hm => ?_, fun h hout hf => ?_⟩⟩
  · rw [← wramIndex_eq]
    exact exec_getByte_workRam h s
  · exact exec_getByte_of_memRead ((memRead_ppuWindow h h' s).trans (congrArg _ (ppuRegRead_data hd)))
  · exact exec_getByte_of_memRead ((memRead_ppuWindow h h' s).trans (congrArg _ (ppuRegRead_other hd)))
  · exact exec_getByte_of_memRead (memRead_unimplemented h h' s)
  · exact exec_getByte_of_romRead h (romRead_inRange h hin)
  · exact exec_getByte_of_romRead h (romRead_mirror h hout hm)
  · exact exec_getByte_of_romRead_error h (romRead_fault h hout hf)

/-! ### The mirrors of work RAM -/

/-- A fetch from work RAM answers the cell at `PC` and moves only `PC`: the region is far below the top of the address
space, so the advance never overflows (R160). -/
theorem exec_incrementByte_workRam (h : s.pc.toNat < 0x2000) :
    exec .incrementByte s =
      .next { s with pc := s.pc + 1, response := some (.byte (s.wram.read (wramIndex s.pc))) } := by
  have hread : Readable s.cfg s.pc := .inl (by omega)
  have hadvance : Advances s.cfg s.pc 1 := .inl (by omega)
  rw [exec_incrementByte_ok hread hadvance, afterRead_workRam h, seenByte_workRam h, wramIndex_eq]

/-- Two mirrors select one cell, so the byte written through one stands at the index of the other (R64). -/
theorem memWrite_read_mirror (v : Byte) (hwf : s.wram.wf = true) (ha : a.toNat < 0x2000)
    (hab : a.toNat % 0x800 = b.toNat % 0x800) : (memWrite a v s).wram.read (wramIndex b) = v := by
  have hindex : wramIndex b = wramIndex a := by rw [wramIndex_eq, wramIndex_eq, hab]
  rw [memWrite_wram, if_pos ha, hindex, Memory.read_write_same hwf]

/-- Settles O35, by `memWrite_read_mirror`. -/
theorem mirrorsOfWorkRamAreOneCell : Obligations.MirrorsOfWorkRamAreOneCell := by
  intro s a b v hwf ha hb hab
  refine ⟨_, exec_setByte a v s, ?_⟩
  rw [exec_getByte_workRam hb, respond_wram, memWrite_read_mirror v hwf ha hab]
  rfl

/-- Settles O43: the write leaves `PC` alone, and the fetch reads the cell it wrote (`memWrite_read_mirror`). -/
theorem fetchSeesEarlierWrites : Obligations.FetchSeesEarlierWrites := by
  intro s a v hwf ha hpc hab
  refine ⟨_, exec_setByte a v s, ?_⟩
  have hpc_kept : (respond .done (memWrite a v s)).pc = s.pc := by rw [respond_pc, memWrite_pc]
  rw [exec_incrementByte_workRam (hpc_kept ▸ hpc), hpc_kept, respond_wram, memWrite_read_mirror v hwf ha hab]

end Sys2Proof.Machine
end

section
/-! PROOFS. The encoding of requests (30_encoding.md): the encoder is read back by the decoder (R96, R99, R110, R111), the
codes of R111's table and the reserved ones (R112), the bits of the port formats, and when a step stops (R117, R300). -/

namespace Sys2Proof

/-! ### Encoding and decoding -/

/-- A byte put in a 16-bit field is read back from its low half (R110). -/
theorem extractLsb'_setWidth_byte (v : Byte) : (v.setWidth 16).extractLsb' 0 8 = v := by
  apply BitVec.eq_of_toNat_eq
  have := v.isLt
  simp only [BitVec.extractLsb'_toNat, BitVec.toNat_setWidth, Nat.shiftRight_zero]
  omega

/-- An encodable coordinate fills its 3-bit field and no more (R110). -/
theorem coordinate_of_field {k : Nat} (h : coordinateEncodable k = true) : (BitVec.ofNat 3 k).toNat = k := by
  rw [BitVec.toNat_ofNat, Nat.mod_eq_of_lt (of_decide_eq_true h)]

/-- What a 3-bit field holds is an encodable coordinate (R110). -/
@[simp] theorem coordinateEncodable_toNat (x : BitVec 3) : coordinateEncodable x.toNat = true :=
  decide_eq_true x.isLt

/-- The encoder takes the row of the operation's own code, and each port format that the row reads loses nothing. -/
theorem decode_encode {i : Instr} (h : i.WellFormed) : decode (encode i) = .ok i := by
  cases i with
  | getByte | getWord | setWord | pushWord | popByte | popWord | incrementByte | incrementWord | oamSync
  | tileDecode => rfl
  | setByte | pushByte | oamRead | oamWrite | attrDecode =>
    simp [decode, encode, requestOf, extractLsb'_setWidth_byte]
  | attrEncode q => simp [decode, encode, requestOf, attributeOfPort_toPort]
  | colorize t pal => simp [decode, encode, requestOf, tileOfPort_toPort, paletteOfPort_toPort]
  | tileGet t x y =>
    obtain ⟨hx, hy⟩ := Bool.and_eq_true_iff.1 h
    simp [decode, encode, requestOf, tileOfPort_toPort, coordinate_of_field hx, coordinate_of_field hy]
  | coloredGet c x y =>
    obtain ⟨hx, hy⟩ := Bool.and_eq_true_iff.1 h
    simp [decode, encode, requestOf, coloredTileOfPort_toPort, coordinate_of_field hx, coordinate_of_field hy]

/-- A number that spells a request is decoded as the request. -/
theorem decodeBits_toBits (r : Request) : decodeBits r.toBits = decode r := by
  rw [decodeBits, ofBits_toBits]

/-- Settles O16, from `decode_encode`: the request's bits lose no field of it. -/
theorem encodedOperationsDecodeBack : Obligations.EncodedOperationsDecodeBack :=
  fun i h => ⟨decode_encode h, (decodeBits_toBits (encode i)).trans (decode_encode h)⟩

/-! ### The operation codes -/

/-- Settles O17: each code selects its own row of the decoder. -/
theorem operationCodesOfTheTable : Obligations.OperationCodesOfTheTable := by
  intro r
  and_intros
  all_goals
    intro h
    rw [decode, h]
    rfl

/-- Settles O18, by running the decoder on each word. -/
theorem sampleWordsDecode : Obligations.SampleWordsDecode := by
  unfold Obligations.SampleWordsDecode
  and_intros
  all_goals decide

/-- The codes of R112. -/
def reservedCodes : List Nat := [0x0A, 0x0B, 0x0C, 0x0D, 0x0E, 0x0F, 0x13, 0x14, 0x15, 0x16, 0x17, 0x1E, 0x1F]

/-- A request names a well-formed operation, or its code is reserved and it is refused with that code (R112, R117). -/
theorem decode_cases (r : Request) :
    (r.op.toNat ∉ reservedCodes ∧ ∃ i, decode r = .ok i ∧ i.WellFormed) ∨
    (r.op.toNat ∈ reservedCodes ∧ decode r = .error (.reservedOp r.op)) := by
  have hop := r.op.isLt
  unfold decode
  split
  case h_20 =>
    refine .inr ⟨?_, rfl⟩
    simp only [reservedCodes, List.mem_cons, List.not_mem_nil, or_false, imp_false] at *
    omega
  all_goals
    next h =>
    refine .inl ⟨by rw [h]; decide, _, rfl, ?_⟩
    simp [Instr.WellFormed, Instr.wellFormed]

/-! ### The port formats -/

theorem attributeToPort_ofPort : ∀ b : BitVec 5, attributeToPort (attributeOfPort b) = b := by decide

theorem intentCode_ofCode : ∀ b : BitVec 2, intentCode (intentOfCode b) = b := by decide

theorem tileToPort_ofPort (b : BitVec 128) : tileToPort (tileOfPort b) = b :=
  packCells_extractLsb' (w := 2) (n := 64) b

theorem coloredTileToPort_ofPort (b : BitVec 1536) : coloredTileToPort (coloredTileOfPort b) = b :=
  packCells_extractLsb' (w := 24) (n := 64) b

theorem paletteToPort_ofPort (b : BitVec 32) : paletteToPort (paletteOfPort b) = b :=
  packCells_extractLsb' (w := 8) (n := 4) b

/-- Settles O21: each format's reader is undone by its writer, and takes each cell from its own bits. -/
theorem portValuesKeepEveryBit : Obligations.PortValuesKeepEveryBit := by
  refine ⟨fun b => ⟨attributeToPort_ofPort b, rfl, rfl, rfl, rfl⟩, intentCode_ofCode, ⟨rfl, rfl, rfl, rfl⟩,
    tileToPort_ofPort, coloredTileToPort_ofPort, paletteToPort_ofPort, fun b i => ?_, fun b x y => ?_, fun b x y => ?_⟩
  · simp only [paletteOfPort, Fin.getElem_fin, Vector.getElem_ofFn]
  · simp only [tileOfPort, Vector.getElem_ofFn]
  · simp only [coloredTileOfPort, Vector.getElem_ofFn]

end Sys2Proof

namespace Sys2Proof.Machine

variable {s : State}

/-! ### Reserved codes -/

theorem step_reserved {r : Request} {rest : List Input} {op : BitVec 5} (hf : s.fault = none)
    (hi : s.inputs = .request r :: rest) (hd : decode r = .error (.reservedOp op)) :
    step s = .next (refuse op (takeInput rest s)) := by
  simp only [step, hf, hi, hd]

/-- Settles O19, from the two ways a request can decode (`decode_cases`). -/
theorem reservedCodesAreRefused : Obligations.ReservedCodesAreRefused := by
  refine ⟨fun r hr => ?_, fun r hr => ?_, fun s r rest hf hi hd => step_reserved hf hi hd⟩
  · rcases decode_cases r with ⟨hnot, -⟩ | ⟨-, herror⟩
    · exact absurd hr hnot
    · exact herror
  · rcases decode_cases r with ⟨-, hok⟩ | ⟨hmem, -⟩
    · exact hok
    · exact absurd hmem hr

/-! ### When a step stops -/

/-- An operation always answers a next state: R117 leaves none without a meaning, and a fault is one too (log 1). -/
theorem exec_next (i : Instr) (s : State) : ∃ t, exec i s = .next t := by
  rcases exec_cases i s with ⟨r, u, h, -⟩ | ⟨f, h, -⟩
  · exact ⟨_, h⟩
  · exact ⟨_, h⟩

/-- A block that no fault has stopped takes every step: it is idle, or serves whatever the next input is. -/
theorem step_next (hf : s.fault = none) : ∃ t, step s = .next t := by
  match hi : s.inputs with
  | [] => exact ⟨_, step_idle hf hi⟩
  | .cpuWritesPc v :: rest => exact ⟨externalPcWrite v (takeInput rest s), by simp only [step, hf, hi]⟩
  | .cpuWritesS v :: rest => exact ⟨externalSWrite v (takeInput rest s), by simp only [step, hf, hi]⟩
  | .request r :: rest =>
    match hd : decode r with
    | .ok i => exact step_request hf hi hd ▸ exec_next i (takeInput rest s)
    | .error (.reservedOp op) => exact ⟨_, step_reserved hf hi hd⟩

/-- Settles O7: a fault record stops the step (`step_stopped`), and without one it answers a next state
(`step_next`). -/
theorem stepStopsOnlyOnARecordedFault : Obligations.StepStopsOnlyOnARecordedFault := by
  refine ⟨fun s r h => ?_, fun s f => ?_⟩
  · cases hs : s.fault with
    | some rec => simp [step_stopped hs] at h
    | none =>
      obtain ⟨t, ht⟩ := step_next hs
      simp [ht] at h
  · cases hs : s.fault with
    | some rec => simp [step_stopped hs, eq_comm]
    | none =>
      obtain ⟨t, ht⟩ := step_next hs
      simp [ht]

end Sys2Proof.Machine
end

section
/-! PROOFS. Bus access (40_bus_access.md): a word read as two byte reads (R121, R122), a byte write in each region but
the PPU window (R123, R124), and a word write as two byte writes (R126, R127). -/

namespace Sys2Proof.Machine

variable {s t : State} {a b : Addr}

/-! ### A word read -/

/-- Below the top of the address space, `a + 1` raises no overflow under either `ADDR_OVERFLOW`. -/
theorem advances_one_of_ne_top (c : Config) (h : a ≠ 0xFFFF) : Advances c a 1 :=
  .inl (by bv_omega)

/-- Settles O25: each way that the two reads and the advance between them can end is a lemma about `readWord`. -/
theorem getWordReadsLowThenHigh : Obligations.GetWordReadsLowThenHigh := by
  refine ⟨fun r => ?_, fun s a hlow hadvance hhigh => ?_, fun s a hlow => ?_, fun s a hlow hadvance => ?_,
    fun s a hlow hadvance hhigh => ?_⟩
  · obtain ⟨-, hgetWord, -⟩ := operationCodesOfTheTable r
    exact hgetWord
  · exact exec_getWord_of_readWord (readWord_ok hlow hadvance hhigh)
  · exact exec_getWord_of_error (readWord_low_error hlow)
  · exact exec_getWord_of_error (readWord_advance_error hlow hadvance)
  · exact exec_getWord_of_error (readWord_high_error hlow hadvance hhigh)

/-- A byte read that answers a byte did not fault: its address is readable, and the byte is what the read sees. -/
theorem exec_getByte_answer {v : Byte} (h : exec (.getByte a) s = .next t) (hv : t.response = some (.byte v)) :
    Readable s.cfg a ∧ v = seenByte s a s.draws ∧ t = respond (.byte v) (afterRead a s) := by
  by_cases hread : Readable s.cfg a
  · rw [exec_getByte_ok hread] at h
    obtain rfl := Host.Outcome.next.inj h
    obtain rfl : seenByte s a s.draws = v := by simpa using hv
    exact ⟨hread, rfl, rfl⟩
  · rw [exec_getByte_error hread] at h
    obtain rfl := Host.Outcome.next.inj h
    simp at hv

/-- Settles O26: the two byte reads found both bytes (`exec_getByte_answer`), so the word read finds them too. -/
theorem wordReadIsTwoByteReads : Obligations.WordReadIsTwoByteReads := by
  intro s t u a lo hi htop hlow hlo hhigh hhi
  obtain ⟨hlowRead, rfl, rfl⟩ := exec_getByte_answer hlow hlo
  obtain ⟨hhighRead, rfl, rfl⟩ := exec_getByte_answer hhigh hhi
  rw [exec_getWord_of_readWord (readWord_ok hlowRead (advances_one_of_ne_top s.cfg htop) hhighRead), joinWord_eq_or]
  rfl

/-! ### A byte write -/

/-- A byte write into work RAM changes work RAM and no other field. -/
theorem memWrite_workRam_frame (h : a.toNat < 0x2000) (v : Byte) (s : State) :
    memWrite a v s = { s with wram := (memWrite a v s).wram } := by
  rw [memWrite_workRam h]
  rfl

/-- In work RAM, a byte write replaces the cell that its address selects (R63). -/
theorem memWrite_workRam_read (hwf : s.wram.wf = true) (h : a.toNat < 0x2000) (v : Byte) (k : Nat) :
    (memWrite a v s).wram.read k = if k = wramIndex a then v else s.wram.read k := by
  rw [memWrite_wram, if_pos h, Memory.read_write hwf]

/-- Settles O27: two addresses of work RAM select one cell exactly when they are mirrors. -/
theorem setByteStoresInWorkRam : Obligations.SetByteStoresInWorkRam := by
  intro s a v hwf ha
  refine ⟨_, exec_setByte a v s, congrArg (respond .done) (memWrite_workRam_frame ha v s), fun b _ => ?_⟩
  rw [respond_wram, memWrite_workRam_read hwf ha, wramIndex_eq, wramIndex_eq]

/-- Settles O28: a byte write outside work RAM and the PPU window only emits its region's diagnostic. -/
theorem setByteElsewhereIsDiscarded : Obligations.SetByteElsewhereIsDiscarded := by
  refine fun s a v => ⟨fun h h' => ?_, fun h => ?_⟩
  · rw [exec_setByte, memWrite_unimplemented h h']
    rfl
  · rw [exec_setByte, memWrite_programRom h]
    rfl

/-! ### A word write -/

/-- Two `set_byte` requests in a row leave the two byte writes, with one response. -/
theorem exec_setByte_setByte (a b : Addr) (v w : Byte) (s : State) :
    exec (.setByte b w) (respond .done (memWrite a v s)) = .next (respond .done (memWrite b w (memWrite a v s))) := by
  rw [exec_setByte, memWrite_respond, respond_respond]

/-- Settles O32: the word write is the two byte writes of its mode, and they are two `set_byte` requests
(`exec_setByte_setByte`). -/
theorem setWordIsTwoByteWrites : Obligations.SetWordIsTwoByteWrites := by
  refine ⟨fun r => ?_, fun s a w => ⟨fun hmode => ?_, fun hmode hadvance => ?_, fun hmode htop hfault => ?_⟩⟩
  · obtain ⟨-, -, -, hsetWord, -⟩ := operationCodesOfTheTable r
    exact hsetWord
  · exact ⟨_, _, exec_setByte a _ s, exec_setByte_setByte a a _ _ s, exec_setWord_sameAddress a w hmode⟩
  · exact ⟨_, _, exec_setByte a _ s, exec_setByte_setByte a (a + 1) _ _ s, exec_setWord_split w hmode hadvance⟩
  · have hoverflow : ¬ Advances s.cfg a 1 := by simp [htop, hfault]
    exact exec_setWord_split_error w hmode hoverflow

/-- Two byte writes into work RAM change work RAM and no other field. -/
theorem memWrite_memWrite_workRam_frame (ha : a.toNat < 0x2000) (hb : b.toNat < 0x2000) (v w : Byte) (s : State) :
    memWrite b w (memWrite a v s) = { s with wram := (memWrite b w (memWrite a v s)).wram } := by
  rw [memWrite_workRam ha, memWrite_workRam hb]
  rfl

/-- After two byte writes into work RAM, the second's cell holds its byte, and then the first's. -/
theorem memWrite_memWrite_workRam_read (hwf : s.wram.wf = true) (ha : a.toNat < 0x2000) (hb : b.toNat < 0x2000)
    (v w : Byte) (k : Nat) :
    (memWrite b w (memWrite a v s)).wram.read k =
      if k = wramIndex b then w else if k = wramIndex a then v else s.wram.read k := by
  rw [memWrite_workRam_read (memWrite_wram_wf a v hwf) hb, memWrite_workRam_read hwf ha]

/-- Settles O33: under `SameAddress` the high byte overwrites the low byte's cell; under `Split` `a + 1` lies in
work RAM too. -/
theorem setWordInWorkRamByMode : Obligations.SetWordInWorkRamByMode := by
  refine fun s a w hwf => ⟨fun hmode ha => ?_, fun hmode ha => ?_⟩
  · refine ⟨_, exec_setWord_sameAddress a w hmode,
      congrArg (respond .done) (memWrite_memWrite_workRam_frame ha ha _ _ s), fun k => ?_⟩
    rw [respond_wram, memWrite_memWrite_workRam_read hwf ha ha]
    split <;> rfl
  · have hlow : a.toNat < 0x2000 := by omega
    have hhigh : (a + 1).toNat < 0x2000 := by bv_omega
    have hadvance : Advances s.cfg a 1 := .inl (by omega)
    refine ⟨_, exec_setWord_split w hmode hadvance,
      congrArg (respond .done) (memWrite_memWrite_workRam_frame hlow hhigh _ _ s), fun k => ?_⟩
    exact memWrite_memWrite_workRam_read hwf hlow hhigh _ _ k

end Sys2Proof.Machine
end

section
/-! PROOFS. The stack (41_stack.md): what a push leaves in the stack page (R140, R141), what a pop answers (R142, R143),
and that a push and a pop of one width undo each other (R144), at both ends of the page too (R145). -/

namespace Sys2Proof.Machine

variable {s : State}

/-! ### The slots of the stack page -/

/-- The slot below `S`, modulo 256 in the page (R141). -/
theorem toNat_sub_one (sp : Byte) : (sp - 1).toNat = (sp.toNat + 255) % 256 := by
  bv_omega

/-- Moving `S` down by one leads to another slot, at the bottom of the page too. -/
theorem stackSlot_ne_below (sp : Byte) : 0x100 + sp.toNat ≠ 0x100 + (sp - 1).toNat := by
  bv_omega

/-! ### A push -/

/-- Settles O36: the push writes the cell of `0x0100 + S` (`exec_pushByte`). -/
theorem pushByteStoresThenDecrements : Obligations.PushByteStoresThenDecrements := by
  refine ⟨fun r => ?_, fun s v hwf => ⟨_, exec_pushByte v s, rfl, wramIndex_stackAddr s.sp, fun k => ?_⟩⟩
  · obtain ⟨-, -, -, -, hpushByte, -⟩ := operationCodesOfTheTable r
    exact hpushByte
  · rw [wramIndex_stackAddr]
    exact Memory.read_write hwf _ v k

/-- Work RAM after a word is pushed in two slots: the second write, of the low byte, is seen first (R141). -/
theorem read_pushWord (hwf : s.wram.wf = true) (w : Word) (k : Nat) :
    ((s.wram.write (0x100 + s.sp.toNat) (highByte w)).write (0x100 + (s.sp - 1).toNat) (lowByte w)).read k =
      if k = 0x100 + (s.sp - 1).toNat then lowByte w
      else if k = 0x100 + s.sp.toNat then highByte w else s.wram.read k := by
  rw [Memory.read_write (Memory.wf_write hwf _ _), Memory.read_write hwf]

/-- Settles O37: the second of the two writes (`exec_pushWord`) is in the slot below the first. -/
theorem pushWordStoresHighThenLow : Obligations.PushWordStoresHighThenLow := by
  refine ⟨fun r => ?_, fun s w hwf => ⟨_, exec_pushWord w s, ?_, fun k => ?_⟩⟩
  · obtain ⟨-, -, -, -, -, hpushWord, -⟩ := operationCodesOfTheTable r
    exact hpushWord
  · rw [BitVec.sub_sub]
    rfl
  · rw [← toNat_sub_one]
    exact read_pushWord hwf w k

/-! ### A pop -/

/-- A byte is popped from the slot that `S` has moved up to (R142). -/
theorem exec_popByte_slot (s : State) : exec .popByte s = .next { s with
    sp := s.sp + 1, response := some (.byte (s.wram.read (0x100 + (s.sp + 1).toNat))) } :=
  exec_popByte s

/-- A word is popped from the two slots that `S` moves up to, the low byte from the first (R143). -/
theorem exec_popWord_slots (s : State) : exec .popWord s = .next { s with
    sp := s.sp + 1 + 1
    response := some (.word (joinWord (s.wram.read (0x100 + (s.sp + 1 + 1).toNat))
      (s.wram.read (0x100 + (s.sp + 1).toNat)))) } :=
  exec_popWord s

/-- Settles O38: the two moves of `S` by one are a move by two. -/
theorem popsIncrementThenRead : Obligations.PopsIncrementThenRead := by
  refine ⟨fun r => ?_, fun r => ?_, fun s => ⟨exec_popByte s, ?_⟩⟩
  · obtain ⟨-, -, -, -, -, -, hpopByte, -⟩ := operationCodesOfTheTable r
    exact hpopByte
  · obtain ⟨-, -, -, -, -, -, -, hpopWord, -⟩ := operationCodesOfTheTable r
    exact hpopWord
  · rw [exec_popWord_slots, BitVec.add_assoc]
    rfl

/-! ### A push and then a pop -/

/-- Settles O39: the pop moves `S` back over the slots of the push, and finds in each the byte put there. -/
theorem stackRoundTrips : Obligations.StackRoundTrips := by
  refine fun s hwf => ⟨fun v => ⟨_, _, exec_pushByte v s, exec_popByte_slot _, ?_, ?_⟩,
    fun w => ⟨_, _, exec_pushWord w s, exec_popWord_slots _, ?_, ?_⟩⟩
  · simp only [BitVec.sub_add_cancel, Memory.read_write_same hwf]
  · exact BitVec.sub_add_cancel s.sp 1
  · simp only [BitVec.sub_add_cancel, read_pushWord hwf, if_neg (stackSlot_ne_below s.sp), if_true,
      joinWord_highByte_lowByte]
  · simp only [BitVec.sub_add_cancel]

/-! ### The ends of the page -/

/-- Settles O40: the moves of `S` are modulo 256, and a push or a pop leaves the record and the diagnostics alone. -/
theorem stackPointerWraps : Obligations.StackPointerWraps := by
  refine ⟨fun s v hsp => ⟨_, exec_pushByte v s, ?_, rfl, rfl⟩,
    fun s hsp => ⟨_, exec_popByte_slot s, ?_, ?_, rfl, rfl⟩⟩
  all_goals
    rw [hsp]
    rfl

end Sys2Proof.Machine
end

section
/-! PROOFS. Instruction fetch (42_fetch.md): what the two fetches answer and how they fault (R160, R161), and that nothing
else in the block moves `PC` (R162). -/

namespace Sys2Proof.Machine

variable {s : State} {a : Addr} {f : FaultRecord}

/-! ### Where the advance overflows -/

/-- Under `ADDR_OVERFLOW = Fault`, an advance past 0xFFFF is an overflow. -/
theorem not_advances_of_past_top {c : Config} {k : Nat} (hpast : 0xFFFF < a.toNat + k) (hfault : c.addrOverflow = .fault) :
    ¬ Advances c a k := by
  simp [hpast, hfault]

/-! ### A fetch of a byte -/

/-- Settles O41: the read and the advance end in one of three ways, in that order. -/
theorem incrementByteFetches : Obligations.IncrementByteFetches := by
  refine ⟨fun r => ?_, fun s => ⟨exec_incrementByte_ok, exec_incrementByte_read_error, fun hread hpc hfault => ?_⟩⟩
  · obtain ⟨-, -, -, -, -, -, -, -, hincrementByte, -⟩ := operationCodesOfTheTable r
    exact hincrementByte
  · exact exec_incrementByte_advance_error hread (not_advances_of_past_top (by simp [hpc]) hfault)

/-! ### A fetch of a word -/

/-- `get_word` passes on the fault of its word read: what it answers tells the fault, and a word is no fault. -/
theorem readWord_error_of_exec_getWord (h : exec (.getWord a) s = .next (raiseFault f s)) :
    readWord a s = .error f := by
  cases hread : readWord a s with
  | ok q =>
    have answer := congrArg State.response (Host.Outcome.next.inj ((exec_getWord_of_readWord hread).symm.trans h))
    simp at answer
  | error g =>
    have record := congrArg State.fault (Host.Outcome.next.inj ((exec_getWord_of_error hread).symm.trans h))
    simpa using record

/-- Settles O42: the word read faults as `get_word` does (`readWord_error_of_exec_getWord`); at 0xFFFE it does not, and
then the advance by two does. -/
theorem incrementWordFetches : Obligations.IncrementWordFetches := by
  refine ⟨fun r => ?_, fun s => ⟨fun hlow hhigh hadvance => ?_, fun f h => ?_, fun hlow hhigh hpc hfault => ?_⟩⟩
  · obtain ⟨-, -, -, -, -, -, -, -, -, hincrementWord, -⟩ := operationCodesOfTheTable r
    exact hincrementWord
  · exact exec_incrementWord_ok (readWord_ok hlow (advances_of_two hadvance) hhigh) hadvance
  · exact exec_incrementWord_read_error (readWord_error_of_exec_getWord h)
  · have hread := readWord_ok hlow (advances_one_of_ne_top s.cfg (by simp [hpc])) hhigh
    exact exec_incrementWord_advance_error hread (not_advances_of_past_top (by simp [hpc]) hfault)

/-! ### What moves `PC` -/

theorem step_cpuWritesPc {v : Addr} {rest : List Input} (hf : s.fault = none)
    (hi : s.inputs = .cpuWritesPc v :: rest) : step s = .next (externalPcWrite v (takeInput rest s)) := by
  simp only [step, hf, hi]

@[simp] theorem syncOam_pc (s : State) : (syncOam s).pc = s.pc := by rw [syncOam_frame]

/-- Settles O12: the two fetches set `PC`, and no shared operation that another operation runs moves it. -/
theorem onlyFetchAdvancesPc : Obligations.OnlyFetchAdvancesPc := by
  refine ⟨fun i s t _ h ht => ?_, fun s v rest hf hi => step_cpuWritesPc hf hi⟩
  obtain ⟨r, u, rfl, hu⟩ := exec_unfaulted h ht
  rw [respond_pc]
  cases i <;> simp only [LeavesUpToResponse] at hu ⊢
  case setWord a w => rcases hu with ⟨-, rfl⟩ | ⟨-, rfl⟩ <;> simp
  all_goals subst hu; simp

end Sys2Proof.Machine
end

section
/-! PROOFS. The tile decoder (43_tile_decoder.md): how the two bit planes make a tile (R170, R171, R173), and the cell
that each grid accessor answers (R172, R193). -/

namespace Sys2Proof.Machine

variable {s : State} {n : Nat}

/-! ### The planes of a record -/

/-- Settles O44: the decoded tile is a grid of pixels, and each pixel is made of its two plane bits. -/
theorem tileDecodeCombinesThePlanes : Obligations.TileDecodeCombinesThePlanes := by
  refine ⟨fun r => ?_, fun s n => ⟨fun h => ⟨_, exec_tileDecode_ok h, fun x y => ?_⟩, exec_tileDecode_error⟩⟩
  · obtain ⟨-, -, -, -, -, -, -, -, -, -, -, -, -, htileDecode, -⟩ := operationCodesOfTheTable r
    exact htileDecode
  · rw [gridOf_getElem _ x.isLt y.isLt, pixelOfPlanes_toNat]

/-! ### Uniform records -/

/-- A grid that holds `c` in every column and row is 64 cells of `c` (R99). -/
theorem gridOf_eq_replicate {α : Type} {f : Nat → Nat → α} {c : α} (h : ∀ x y, x < 8 → y < 8 → f x y = c) :
    gridOf f = Vector.replicate 64 c :=
  Vector.ext fun i hi => by
    simp only [gridOf, Vector.getElem_ofFn, Vector.getElem_replicate]
    exact h _ _ (by omega) (by omega)

/-- Where each plane repeats one byte, and the two bytes make the pixel `p` in every column, the tile is all `p`. -/
theorem exec_tileDecode_uniform {hi lo : Byte} {p : PixelIndex} (hsize : 16 * n + 16 ≤ s.cfg.tileMem.size)
    (hlo : ∀ k, k < 8 → s.cfg.tileMem.cells.read (16 * n + k) = lo)
    (hhi : ∀ k, k < 8 → s.cfg.tileMem.cells.read (16 * n + k + 8) = hi)
    (hpixel : ∀ x, x < 8 → pixelOfPlanes hi lo x = p) :
    exec (.tileDecode n) s = .next (respond (.tile (Vector.replicate 64 p)) s) := by
  rw [exec_tileDecode_ok hsize, gridOf_eq_replicate fun x y hx hy => ?_]
  rw [hhi y hy, hlo y hy, hpixel x hx]

/-- Settles O45: each record repeats one byte in each plane (`exec_tileDecode_uniform`). -/
theorem uniformRecordsDecodeUniformly : Obligations.UniformRecordsDecodeUniformly := by
  refine fun s n hsize => ⟨fun hzero => ?_, fun hlow hhigh => ?_⟩
  · have hhi (k : Nat) (hk : k < 8) : s.cfg.tileMem.cells.read (16 * n + k + 8) = 0x00 := hzero (k + 8) (by omega)
    have hlo (k : Nat) (hk : k < 8) : s.cfg.tileMem.cells.read (16 * n + k) = 0x00 := hzero k (by omega)
    exact exec_tileDecode_uniform hsize hlo hhi (by decide)
  · have hhi (k : Nat) (hk : k < 8) : s.cfg.tileMem.cells.read (16 * n + k + 8) = 0x00 :=
      hhigh (k + 8) (by omega) (by omega)
    exact exec_tileDecode_uniform hsize hlow hhi (by decide)

/-! ### The cells of a grid -/

/-- Settles O46: both accessors answer the cell, or raise the coordinate fault, whatever the grid holds. -/
theorem gridAccessors : Obligations.GridAccessors := by
  refine ⟨fun r => ?_, fun r => ?_, fun s T x y => exec_tileGet_ok T x.isLt y.isLt,
    fun s C x y => exec_coloredGet_ok C x.isLt y.isLt, fun s T x y => exec_tileGet_error T,
    fun s C x y => exec_coloredGet_error C⟩
  · obtain ⟨-, -, -, -, -, -, -, -, -, -, -, -, -, -, htileGet, -⟩ := operationCodesOfTheTable r
    exact htileGet
  · obtain ⟨-, -, -, -, -, -, -, -, -, -, -, -, -, -, -, -, hcoloredGet, -⟩ := operationCodesOfTheTable r
    exact hcoloredGet

end Sys2Proof.Machine
end

section
/-! PROOFS. The palette colorizer (44_colorizer.md): the colour of every cell, and the fault of a bad palette entry
(R191, R192, R195). -/

namespace Sys2Proof.Machine

variable {s : State}

/-! ### The colours of a tile -/

/-- Every entry legal: each cell gets the colour resolved for the entry that its pixel index selects (R191). -/
theorem exec_colorize_ok (T : Tile) {pal : PaletteSelection} (h : ∀ k : Fin 4, pal[k].toNat < 64) :
    ∃ C : ColoredTile, exec (.colorize T pal) s = .next (respond (.coloredTile C) s) ∧
      ∀ j : Fin 64, s.cfg.masterPalette[(pal[T[j].toFin]).toNat]? = some C[j] := by
  obtain ⟨col, hcol, hcolour⟩ := resolvePalette_ok s.cfg.masterPalette pal h
  refine ⟨colorTile T col, exec_colorize_of hcol, fun j => ?_⟩
  calc s.cfg.masterPalette[(pal[T[j].toFin]).toNat]?
      _ = some col[T[j].toFin] := hcolour _
      _ = some (colorTile T col)[j] := congrArg some (colorTile_getElem T col j.val j.isLt).symm

/-- Settles O47: either every entry resolves, and the tile is coloured with the results, or the lowest bad one faults. -/
theorem colorizeMapsEveryCell : Obligations.ColorizeMapsEveryCell := by
  refine ⟨fun r => ?_, fun s T pal => ⟨exec_colorize_ok T, fun k hbad hlower => ?_⟩⟩
  · obtain ⟨-, -, -, -, -, -, -, -, -, -, -, -, -, -, -, hcolorize, -⟩ := operationCodesOfTheTable r
    exact hcolorize
  · exact exec_colorize_of_error (resolvePalette_error _ pal k hbad hlower)

/-! ### The identity palette -/

/-- In the palette selection `[0, 1, 2, 3]`, a pixel index selects itself. -/
theorem identityPalette_entry : ∀ p : PixelIndex, ((#v[0, 1, 2, 3] : PaletteSelection)[p.toFin]).toNat = p.toNat := by
  decide

/-- Settles O48: the cell's colour is the one at the selected entry (`exec_colorize_ok`), and that entry is the pixel
index itself. -/
theorem identityPaletteShowsTheIndex : Obligations.IdentityPaletteShowsTheIndex := by
  intro s T x y
  obtain ⟨C, hC, hcell⟩ := exec_colorize_ok (s := s) T (pal := #v[0, 1, 2, 3]) (by decide)
  refine ⟨C, _, hC, rfl, ?_⟩
  have hentry := hcell ⟨8 * y.val + x.val, by omega⟩
  rw [identityPalette_entry] at hentry
  obtain ⟨_, hcolour⟩ := Vector.getElem?_eq_some_iff.1 hentry
  rw [exec_coloredGet_ok C x.isLt y.isLt, show C[8 * y.val + x.val] = _ from hcolour.symm]
  rfl

end Sys2Proof.Machine
end

section
/-! PROOFS. The object attribute table (45_oam.md): what a read and a direct write of it do (R210, R211), what the sync
does with the intent (R212 to R215), the latch invariant (R216), and a sequential upload (R217). -/

namespace Sys2Proof.Machine

variable {s t u : State} {i : Instr} {a : Addr}

/-! ### A read of the table -/

/-- At the byte address `4e + k`, an OAM read answers the field of number `k` of entry `e` (R93, R210). -/
theorem oamGet_of_toNat {e : Fin 64} {i : Byte} (k : Byte) (hk : k.toNat < 4) (h : i.toNat = 4 * e.val + k.toNat) :
    oamGet s i = entryByte s.oam[e] (oamFieldOf k) := by
  have hfield : oamFieldOf i = oamFieldOf k := (oamFieldOf_eq_iff i k).2 (by omega)
  obtain rfl : oamEntryOf i = e := Fin.ext (by rw [oamEntryOf_val]; omega)
  rw [oamGet, hfield]

/-- The bits of a packed attribute are its fields (R95, R232): unpacking it gives them back. -/
theorem attributeToByte_fields (q : SpriteAttribute) :
    (attributeToByte q).getLsbD 7 = q.verticalFlip ∧ (attributeToByte q).getLsbD 6 = q.horizontalFlip ∧
      (attributeToByte q).getLsbD 5 = q.hide ∧ (attributeToByte q).extractLsb' 0 2 = q.palette := by
  have h := attributeOfByte_toByte q
  exact ⟨congrArg SpriteAttribute.verticalFlip h, congrArg SpriteAttribute.horizontalFlip h,
    congrArg SpriteAttribute.hide h, congrArg SpriteAttribute.palette h⟩

theorem exec_oamRead_of_eq {i b : Byte} (h : oamGet s i = b) :
    exec (.oamRead i) s = .next { s with response := some (.byte b) } := by
  rw [exec_oamRead, h, respond]

/-- Settles O49, field by field (`oamGet_of_toNat`). -/
theorem oamReadDispatchesOnTheField : Obligations.OamReadDispatchesOnTheField := by
  refine ⟨fun r => ?_, fun s e i => ⟨fun h => ?_, fun h => ?_, fun h => ?_, fun h => ?_⟩⟩
  · obtain ⟨-, -, -, -, -, -, -, -, -, -, hoamRead, -⟩ := operationCodesOfTheTable r
    exact hoamRead
  · exact exec_oamRead_of_eq (oamGet_of_toNat 0 (by decide) h)
  · exact exec_oamRead_of_eq (oamGet_of_toNat 1 (by decide) h)
  · exact ⟨attributeToByte s.oam[e].attr, exec_oamRead_of_eq (oamGet_of_toNat 2 (by decide) h),
      attributeToByte_reserved _, attributeToByte_fields _⟩
  · exact exec_oamRead_of_eq (oamGet_of_toNat 3 (by decide) h)

/-! ### A direct write of the table -/

/-- Settles O50: the write is seen at its own byte and at no other (`oamGet_oamSet`). -/
theorem oamWriteReplacesOneField : Obligations.OamWriteReplacesOneField := by
  refine ⟨fun r => ?_, fun s i v => ⟨_, exec_oamWrite i v s, rfl, fun j => ?_⟩⟩
  · obtain ⟨-, -, -, -, -, -, -, -, -, -, -, hoamWrite, -⟩ := operationCodesOfTheTable r
    exact hoamWrite
  · exact exec_oamRead_of_eq (oamGet_oamSet i v j s)

/-! ### The sync -/

/-- Settles O51, intent by intent. -/
theorem oamSyncActsOnTheIntent : Obligations.OamSyncActsOnTheIntent := by
  refine ⟨fun r => ?_, fun s => ⟨fun h => ?_, fun h => ⟨_, exec_oamSync s, ?_, fun j => ?_⟩, fun h => ?_⟩⟩
  · obtain ⟨-, -, -, -, -, -, -, -, -, -, -, -, hoamSync, -⟩ := operationCodesOfTheTable r
    exact hoamSync
  · rw [exec_oamSync, syncOam_writeOamAddr h]
    rfl
  · rw [syncOam_writeOamData h]
    rfl
  · rw [syncOam_writeOamData h]
    exact oamGet_oamSet s.oamAddr s.oamData j s
  · rw [exec_oamSync, syncOam_otherwise h]
    rfl

/-! ### The latch invariant -/

/-- `oam_data` is the OAM byte at `oam_addr` (R216). -/
abbrev State.Latched (s : State) : Prop := s.oamData = oamGet s s.oamAddr

theorem State.Latched.congr (h : s.Latched) (hoam : t.oam = s.oam) (haddr : t.oamAddr = s.oamAddr)
    (hdata : t.oamData = s.oamData) : t.Latched := by
  rw [State.Latched, hdata, haddr, oamGet_congr hoam]
  exact h

/-- A sync of a register write ends with the refresh of `oam_data` (R213, R214). -/
theorem syncOam_latched (h : s.intent = .writeOamAddr ∨ s.intent = .writeOamData) : (syncOam s).Latched := by
  rcases h with h | h
  · rw [syncOam_writeOamAddr h]
    rfl
  · rw [syncOam_writeOamData h]
    rfl

/-- A byte write at either OAM register runs such a sync (R242, R243). -/
theorem ppuRegWrite_latched (v : Byte)
    (h : a.toNat % 8 = s.cfg.oamAddrSel.toNat ∨ a.toNat % 8 = s.cfg.oamDataSel.toNat) :
    (ppuRegWrite a v s).Latched := by
  by_cases haddr : a.toNat % 8 = s.cfg.oamAddrSel.toNat
  · rw [ppuRegWrite_address v haddr]
    rfl
  · rw [ppuRegWrite_data v haddr (h.resolve_left haddr)]
    rfl

/-- Settles O52: `syncOam_latched`, and `ppuRegWrite_latched` for a CPU write. -/
theorem syncLeavesTheLatchInvariant : Obligations.SyncLeavesTheLatchInvariant := by
  refine ⟨fun s t hintent h => ?_, fun s t a v hlow hhigh hsel h => ?_⟩
  · obtain rfl := Host.Outcome.next.inj h
    exact (syncOam_latched hintent).congr rfl rfl rfl
  · rw [exec_setByte, memWrite_ppuWindow hlow hhigh] at h
    obtain rfl := Host.Outcome.next.inj h
    exact (ppuRegWrite_latched v hsel).congr rfl rfl rfl

/-! ### What keeps it -/

theorem State.Latched.syncOam (hs : s.Latched) : (syncOam s).Latched := by
  cases h : s.intent with
  | writeOamAddr => exact syncOam_latched (.inl h)
  | writeOamData => exact syncOam_latched (.inr h)
  | idle => exact syncOam_otherwise (.inl h) ▸ hs.congr rfl rfl rfl
  | reserved => exact syncOam_otherwise (.inr h) ▸ hs.congr rfl rfl rfl

theorem State.Latched.memWrite (hs : s.Latched) (a : Addr) (v : Byte) : (memWrite a v s).Latched := by
  by_cases ha : InPpuWindow a
  · obtain ⟨hlow, hhigh⟩ := ha
    rw [memWrite_ppuWindow hlow hhigh]
    by_cases hreg : a.toNat % 8 = s.cfg.oamAddrSel.toNat ∨ a.toNat % 8 = s.cfg.oamDataSel.toNat
    · exact ppuRegWrite_latched v hreg
    · obtain ⟨haddr, hdata⟩ := not_or.1 hreg
      rw [ppuRegWrite_other v haddr hdata]
      exact hs.congr rfl rfl rfl
  · obtain ⟨hoam, haddr, hdata, -⟩ := memWrite_oam_frame (s := s) v ha
    exact hs.congr hoam haddr hdata

/-- A direct write at another OAM byte does not change the byte at `oam_addr` (R211). -/
theorem State.Latched.oamSet_other (hs : s.Latched) {k : Byte} (hk : s.oamAddr ≠ k) (v : Byte) :
    (oamSet k v s).Latched := by
  rw [State.Latched, oamSet_oamData, oamSet_oamAddr, oamGet_oamSet, if_neg hk]
  exact hs

/-- Every operation that raises no fault keeps it, but for a direct write at `oam_addr`. -/
theorem LeavesUpToResponse.latched (hu : LeavesUpToResponse i s u) (hs : s.Latched)
    (hw : ∀ v, i ≠ .oamWrite s.oamAddr v) : u.Latched := by
  cases i <;> simp only [LeavesUpToResponse] at hu
  case setByte a v => exact hu ▸ hs.memWrite a v
  case setWord a w =>
    have low := hs.memWrite a (lowByte w)
    rcases hu with ⟨-, rfl⟩ | ⟨-, rfl⟩
    · exact low.memWrite a (highByte w)
    · exact low.memWrite (a + 1) (highByte w)
  case oamWrite k v => exact hu ▸ hs.oamSet_other (fun hk => hw v (hk ▸ rfl)) v
  case oamSync => exact hu ▸ hs.syncOam
  all_goals exact hu ▸ hs.congr rfl rfl rfl

/-- Settles O59, by the five ways a step can end (`step_cases`): only an operation can touch OAM or its latches. -/
theorem onlyADirectOamWriteBreaksTheLatch : Obligations.OnlyADirectOamWriteBreaksTheLatch := by
  intro s t hs h ht
  have taken (rest : List Input) : (takeInput rest s).Latched := State.Latched.congr hs rfl rfl rfl
  obtain ⟨-, ⟨-, rfl⟩ | ⟨v, rest, -, rfl⟩ | ⟨v, rest, -, rfl⟩ | ⟨r, rest, i, hi, hd, hexec⟩ | ⟨r, rest, op, -, -, rfl⟩⟩ :=
    step_cases h
  · exact .inl hs
  · exact .inl ((taken rest).congr rfl rfl rfl)
  · exact .inl ((taken rest).congr rfl rfl rfl)
  · by_cases hw : ∃ v, i = .oamWrite s.oamAddr v
    · obtain ⟨v, rfl⟩ := hw
      exact .inr ⟨r, rest, v, hi, hd⟩
    · obtain ⟨q, u, rfl, hu⟩ := exec_unfaulted hexec ht
      have hlatched : u.Latched := hu.latched (taken rest) fun v hv => hw ⟨v, hv⟩
      exact .inl (hlatched.congr rfl rfl rfl)
  · exact .inl ((taken rest).congr rfl rfl rfl)

end Sys2Proof.Machine
end

section
/-! PROOFS. A sequential upload through the OAM data register (R217): the queue of CPU writes served one by one. -/

namespace Sys2Proof.Machine

variable {s : State} {a : Addr}

/-- A CPU address of the OAM data register, and not of the address register (R241, R243). -/
structure IsDataRegister (c : Config) (a : Addr) : Prop where
  low        : 0x2000 ≤ a.toNat
  high       : a.toNat < 0x4000
  notAddress : a.toNat % 8 ≠ c.oamAddrSel.toNat
  isData     : a.toNat % 8 = c.oamDataSel.toNat

theorem memWrite_dataRegister (h : IsDataRegister s.cfg a) (v : Byte) :
    memWrite a v s = { s with
      oam := (oamSet s.oamAddr v s).oam
      oamAddr := s.oamAddr + 1
      oamData := oamGet (oamSet s.oamAddr v s) (s.oamAddr + 1)
      intent := .idle } :=
  (memWrite_ppuWindow h.low h.high v s).trans (ppuRegWrite_data v h.notAddress h.isData)

/-- One CPU write to the data register, served as a step: it commits its byte at `oam_addr` and advances (R243). -/
theorem step_dataWrite {v : Byte} {rest : List Input} (hf : s.fault = none) (ha : IsDataRegister s.cfg a)
    (hi : s.inputs = .request (encode (.setByte a v)) :: rest) :
    ∃ t, step s = .next t ∧ t.fault = none ∧ t.cfg = s.cfg ∧ t.inputs = rest ∧ t.oamAddr = s.oamAddr + 1 ∧
      ∀ x, oamGet t x = if x = s.oamAddr then keptByte x v else oamGet s x := by
  have hstep := step_request hf hi (decode_encode rfl)
  rw [exec_setByte, memWrite_dataRegister (s := takeInput rest s) ha] at hstep
  exact ⟨_, hstep, hf, rfl, rfl, rfl, fun x => oamGet_oamSet s.oamAddr v x s⟩

/-- The inputs of an upload: one CPU write to `a` for each byte. -/
def uploadInputs (a : Addr) (bytes : List Byte) : List Input :=
  bytes.map fun v => .request (encode (.setByte a v))

/-- What an upload of `bytes` from the OAM address `k` on leaves at the address `x`, which held `old`: the byte as many
places into the upload as `x` is past `k`, modulo 256. -/
def uploadedByte (k : Byte) (bytes : List Byte) (old x : Byte) : Byte :=
  (bytes[(x - k).toNat]?).elim old (keptByte x)

/-- An upload of at most 256 bytes is a write at its first address, and then an upload from the next address: at the
first address the rest does not come around. -/
theorem uploadedByte_cons (k v : Byte) {rest : List Byte} (hlen : rest.length < 256) (old x : Byte) :
    uploadedByte (k + 1) rest (if x = k then keptByte x v else old) x = uploadedByte k (v :: rest) old x := by
  unfold uploadedByte
  by_cases hx : x = k
  · have hfirst : (x - k).toNat = 0 := by simp [hx]
    have hlast : (x - (k + 1)).toNat = 255 := by bv_omega
    rw [if_pos hx, hfirst, hlast, List.getElem?_eq_none (by omega)]
    rfl
  · have hnext : (x - k).toNat = (x - (k + 1)).toNat + 1 := by bv_omega
    rw [if_neg hx, hnext, List.getElem?_cons_succ]

/-- An upload of up to 256 bytes, run to its end. -/
theorem run_upload (bytes : List Byte) (hlen : bytes.length ≤ 256) (hf : s.fault = none)
    (ha : IsDataRegister s.cfg a) (hi : s.inputs = uploadInputs a bytes) :
    ∃ t, Host.Core.run Sys2Proof.core bytes.length s = .next t ∧
      t.oamAddr = s.oamAddr + BitVec.ofNat 8 bytes.length ∧
      ∀ x, oamGet t x = uploadedByte s.oamAddr bytes (oamGet s x) x := by
  induction bytes generalizing s with
  | nil => exact ⟨s, rfl, (BitVec.add_zero _).symm, fun x => rfl⟩
  | cons v rest ih =>
    obtain ⟨s₁, hstep, hf₁, hcfg, hi₁, haddr₁, hget₁⟩ := step_dataWrite hf ha hi
    obtain ⟨t, hrun, haddr, hget⟩ := ih (Nat.le_of_succ_le hlen) hf₁ (hcfg ▸ ha) hi₁
    refine ⟨t, (run_succ Sys2Proof.core rest.length hstep).trans hrun, ?_, fun x => ?_⟩
    · rw [haddr, haddr₁, List.length_cons, BitVec.add_assoc, Nat.add_comm, BitVec.ofNat_add]
      rfl
    · rw [hget, haddr₁, hget₁, uploadedByte_cons _ _ hlen]

/-- Settles O53: an upload of 256 bytes (`run_upload`) comes around to its first address. -/
theorem sequentialUploadFillsOam : Obligations.SequentialUploadFillsOam := by
  intro s a bytes hf hsel hlow hhigh hdata hi
  have ha : IsDataRegister s.cfg a :=
    ⟨hlow, hhigh, fun h => hsel (BitVec.eq_of_toNat_eq (h.symm.trans hdata)), hdata⟩
  have hlen : bytes.toList.length = 256 := bytes.length_toList
  obtain ⟨t, hrun, haddr, hget⟩ := run_upload bytes.toList (Nat.le_of_eq hlen) hf ha hi
  rw [hlen] at hrun haddr
  refine ⟨t, hrun, haddr.trans (BitVec.add_zero _), fun j => ?_⟩
  have hplace : (s.oamAddr + BitVec.ofNat 8 j.val - s.oamAddr).toNat = j.val := by
    have := j.isLt
    bv_omega
  have hbyte : bytes.toList[j.val]? = some bytes[j] := by simp
  rw [hget, uploadedByte, hplace, hbyte]
  rfl

end Sys2Proof.Machine
end

section
/-! PROOFS. The attribute codec (46_attribute_codec.md): the fields it takes and puts back (R231, R232), and its two round
trips (R233, R234). -/

namespace Sys2Proof

/-- The mask 0xE3 and the reserved bits 4:2 part a byte between them (R95), so it survives the mask exactly when the reserved
bits are zero. -/
theorem and_0xE3_eq_self_iff (b : Byte) : b &&& 0xE3 = b ↔ b &&& 0x1C = 0 := by
  constructor
  · intro h
    calc b &&& 0x1C = b &&& 0xE3 &&& 0x1C := by rw [h]
      _ = b &&& (0xE3 &&& 0x1C) := BitVec.and_assoc b _ _
      _ = 0 := BitVec.and_zero
  · intro h
    calc b &&& 0xE3 = b &&& 0xE3 ||| b &&& 0x1C := by rw [h]; exact BitVec.or_zero.symm
      _ = b &&& (0xE3 ||| 0x1C) := BitVec.and_or_distrib_left.symm
      _ = b := BitVec.and_allOnes

end Sys2Proof

namespace Sys2Proof.Machine

/-- Settles O56: the response of each operation is the codec's function of its operand, and these functions undo each
other up to the reserved bits (`attributeToByte_ofByte`, `attributeOfByte_toByte`). -/
theorem attributeCodecRoundTrips : Obligations.AttributeCodecRoundTrips := by
  constructor
  · intro s b
    refine ⟨attributeOfByte b, _, _, exec_attrDecode b s, rfl, exec_attrEncode _ _, ?_, and_0xE3_eq_self_iff b⟩
    rw [← attributeToByte_ofByte b, respond]
  · intro s q
    refine ⟨attributeToByte q, _, _, exec_attrEncode q s, rfl, exec_attrDecode _ _, ?_⟩
    rw [attributeOfByte_toByte, respond]

/-- Settles O55, from the last two rows of R111's table and the value of a packed attribute (`attributeToByte_toNat`). -/
theorem attributeCodecFields : Obligations.AttributeCodecFields := by
  refine ⟨fun r => ?_, fun r => ?_, fun s b => exec_attrDecode b s,
    fun s q => ⟨attributeToByte q, exec_attrEncode q s, attributeToByte_toNat q⟩⟩
  all_goals obtain ⟨-, -, -, -, -, -, -, -, -, -, -, -, -, -, -, -, -, hdecode, hencode⟩ := operationCodesOfTheTable r
  · exact hdecode
  · exact hencode

end Sys2Proof.Machine
end

section
/-! PROOFS. The PPU register window (47_ppu_registers.md): a CPU write to either OAM register (R242, R243) or to another one
(R245), and a word write at the OAM registers (R246). -/

namespace Sys2Proof.Machine

variable {s : State} {c : Config} {a b : Addr}

/-! ### The two OAM registers -/

/-- The OAM registers have two selects (R241), so an address of the data register is none of the address register. -/
theorem IsDataRegister.of_selects_ne (hsel : c.oamAddrSel ≠ c.oamDataSel) (hlow : 0x2000 ≤ a.toNat)
    (hhigh : a.toNat < 0x4000) (hdata : a.toNat % 8 = c.oamDataSel.toNat) : IsDataRegister c a :=
  ⟨hlow, hhigh, fun haddr => hsel (BitVec.eq_of_toNat_eq (haddr.symm.trans hdata)), hdata⟩

/-- A CPU address of the OAM address register (R241, R242). -/
structure IsAddressRegister (c : Config) (a : Addr) : Prop where
  low       : 0x2000 ≤ a.toNat
  high      : a.toNat < 0x4000
  isAddress : a.toNat % 8 = c.oamAddrSel.toNat

theorem memWrite_addressRegister (h : IsAddressRegister s.cfg a) (v : Byte) :
    memWrite a v s = { s with oamAddr := v, oamData := oamGet s v, intent := .idle } :=
  (memWrite_ppuWindow h.low h.high v s).trans (ppuRegWrite_address v h.isAddress)

/-- The OAM bytes after a CPU write to the data register: the one at `oam_addr` is replaced (R211, R243). -/
theorem oamGet_memWrite_dataRegister (ha : IsDataRegister s.cfg a) (v j : Byte) :
    oamGet (memWrite a v s) j = if j = s.oamAddr then keptByte j v else oamGet s j := by
  rw [memWrite_dataRegister ha]
  exact oamGet_oamSet s.oamAddr v j s

/-! ### A byte write -/

/-- Settles O29: the write puts `v` in `oam_addr`, and its sync latches the byte there (`memWrite_addressRegister`). -/
theorem oamAddressWriteLatches : Obligations.OamAddressWriteLatches := by
  intro s a v hlow hhigh haddr
  rw [exec_setByte, memWrite_addressRegister ⟨hlow, hhigh, haddr⟩]
  rfl

/-- Settles O30, from the state after a write to the data register (`memWrite_dataRegister`) and the OAM bytes in it. -/
theorem oamDataWriteCommitsAndAdvances : Obligations.OamDataWriteCommitsAndAdvances := by
  intro s a v hsel hlow hhigh hdata
  have ha : IsDataRegister s.cfg a := .of_selects_ne hsel hlow hhigh hdata
  refine ⟨_, exec_setByte a v s, ?_, oamGet_memWrite_dataRegister ha v⟩
  rw [memWrite_dataRegister ha]
  rfl

/-- Settles O31: the window hands the write out. -/
theorem otherRegisterWritesAreHandedOut : Obligations.OtherRegisterWritesAreHandedOut := by
  intro s a v hlow hhigh haddr hdata
  rw [exec_setByte, memWrite_ppuWindow hlow hhigh, ppuRegWrite_other v haddr hdata]
  rfl

/-! ### A word write -/

/-- Two writes to the data register in a row commit at `oam_addr` and at the address after it (R246). -/
theorem memWrite_data_data (ha : IsDataRegister s.cfg a) (v w : Byte) :
    memWrite a w (memWrite a v s) = { s with
      oam := (memWrite a w (memWrite a v s)).oam
      oamAddr := s.oamAddr + 2
      oamData := oamGet (memWrite a w (memWrite a v s)) (s.oamAddr + 2)
      intent := .idle } := by
  have hnext : s.oamAddr + 1 + 1 = s.oamAddr + 2 := BitVec.add_assoc s.oamAddr 1 1
  rw [memWrite_dataRegister (s := memWrite a v s) (by rwa [memWrite_cfg]), memWrite_dataRegister ha, ← hnext]
  rfl

theorem oamGet_memWrite_data_data (ha : IsDataRegister s.cfg a) (v w j : Byte) :
    oamGet (memWrite a w (memWrite a v s)) j =
      if j = s.oamAddr + 1 then keptByte j w else if j = s.oamAddr then keptByte j v else oamGet s j := by
  have hnext : (memWrite a v s).oamAddr = s.oamAddr + 1 := by rw [memWrite_dataRegister ha]
  rw [oamGet_memWrite_dataRegister (s := memWrite a v s) (by rwa [memWrite_cfg]), oamGet_memWrite_dataRegister ha, hnext]

/-- A write to the address register and then one to the data register commit at the address just written (R246). -/
theorem memWrite_address_data (ha : IsAddressRegister s.cfg a) (hb : IsDataRegister s.cfg b) (v w : Byte) :
    memWrite b w (memWrite a v s) = { s with
      oam := (memWrite b w (memWrite a v s)).oam
      oamAddr := v + 1
      oamData := oamGet (memWrite b w (memWrite a v s)) (v + 1)
      intent := .idle } := by
  rw [memWrite_dataRegister (s := memWrite a v s) (by rwa [memWrite_cfg]), memWrite_addressRegister ha]
  rfl

theorem oamGet_memWrite_address_data (ha : IsAddressRegister s.cfg a) (hb : IsDataRegister s.cfg b) (v w j : Byte) :
    oamGet (memWrite b w (memWrite a v s)) j = if j = v then keptByte j w else oamGet s j := by
  rw [oamGet_memWrite_dataRegister (s := memWrite a v s) (by rwa [memWrite_cfg]), memWrite_addressRegister ha]
  rfl

/-- Of two writes to the address register the second decides (R246). -/
theorem memWrite_address_address (ha : IsAddressRegister s.cfg a) (v w : Byte) :
    memWrite a w (memWrite a v s) = { s with oamAddr := w, oamData := oamGet s w, intent := .idle } := by
  rw [memWrite_addressRegister (s := memWrite a v s) (by rwa [memWrite_cfg]), memWrite_addressRegister ha]
  rfl

/-- Settles O34: the word write is two byte writes, each at one of the two registers. -/
theorem setWordAtTheOamRegisters : Obligations.SetWordAtTheOamRegisters := by
  intro s w hsel3 hsel4
  have haddr : IsAddressRegister s.cfg 0x2003 := ⟨by decide, by decide, by rw [hsel3]; rfl⟩
  have hdata : IsDataRegister s.cfg 0x2004 :=
    .of_selects_ne (by rw [hsel3, hsel4]; decide) (by decide) (by decide) (by rw [hsel4]; rfl)
  refine ⟨fun hmode => ?_, fun hmode => ?_, fun hmode => ?_⟩
  · exact ⟨_, exec_setWord_sameAddress 0x2004 w hmode, congrArg (respond .done) (memWrite_data_data hdata _ _),
      oamGet_memWrite_data_data hdata _ _⟩
  · have hadvance : Advances s.cfg 0x2003 1 := .inl (by decide)
    have hnext : (0x2003 : Addr) + 1 = 0x2004 := by decide
    refine ⟨_, hnext ▸ exec_setWord_split w hmode hadvance,
      congrArg (respond .done) (memWrite_address_data haddr hdata _ _), oamGet_memWrite_address_data haddr hdata _ _⟩
  · rw [exec_setWord_sameAddress 0x2003 w hmode, memWrite_address_address haddr]
    rfl

end Sys2Proof.Machine
end

section
/-! PROOFS. Faults, refusals and diagnostics (60_exceptions.md): the table of faults (R301) and the order of their causes
(R330), what a run with a fault or a refusal cannot become (R300, R303), and what is emitted (R310). -/

namespace Sys2Proof.Machine

variable {s t u : State} {c : Config} {i : Instr} {a : Addr} {e : DiagEvent}

/-! ### The causes of a fault -/

/-- A read faults only in the ROM window past the ROM's end, where ROM does not mirror (R62). -/
theorem romRange_cause (h : ¬ Readable c a) :
    c.romRange = .fault ∧ 0x8000 ≤ a.toNat ∧ c.rom.size ≤ a.toNat - 0x8000 := by
  obtain ⟨hlow, hbeyond⟩ := not_or.1 h
  obtain ⟨hsize, hmirror⟩ := not_or.1 hbeyond
  refine ⟨?_, Nat.not_lt.1 hlow, Nat.not_lt.1 hsize⟩
  cases hrange : c.romRange with
  | fault => rfl
  | mirror => exact absurd hrange hmirror

/-- An advance faults only past 0xFFFF, where `ADDR_OVERFLOW` is `Fault` (R12). -/
theorem addrOverflow_cause {k : Nat} (h : ¬ Advances c a k) : c.addrOverflow = .fault ∧ 0xFFFF < a.toNat + k := by
  obtain ⟨hpast, hwrap⟩ := not_or.1 h
  refine ⟨?_, Nat.not_le.1 hpast⟩
  cases hover : c.addrOverflow with
  | fault => rfl
  | wrap => exact absurd hover hwrap

theorem addrOverflow_cause_one (h : ¬ Advances c a 1) : c.addrOverflow = .fault ∧ a = 0xFFFF := by
  obtain ⟨hover, hpast⟩ := addrOverflow_cause h
  exact ⟨hover, by bv_omega⟩

theorem addrOverflow_cause_two (h : ¬ Advances c a 2) : c.addrOverflow = .fault ∧ (a = 0xFFFE ∨ a = 0xFFFF) := by
  obtain ⟨hover, hpast⟩ := addrOverflow_cause h
  exact ⟨hover, by bv_omega⟩

/-- The record that an operation leaves in a state that had none names a fault with a cause. -/
theorem exec_faultCause {f : FaultRecord} (hs : s.fault = none) (h : exec i s = .next t) (hf : t.fault = some f) :
    FaultCause i s f := by
  rcases exec_inversion h with ⟨r, u, rfl, -, hu⟩ | ⟨g, rfl, hcause⟩
  · obtain ⟨hfault, -, -, -⟩ := hu.ports
    rw [respond_fault, hfault, hs] at hf
    cases hf
  · cases hf
    exact hcause

/-- Settles O8, operation by operation: each cause of its faults is a row of the table. -/
theorem onlyTheTablesOperationsFault : Obligations.OnlyTheTablesOperationsFault := by
  intro i s t f hs h hf
  have hcause := exec_faultCause hs h hf
  cases i <;> simp only [FaultCause] at hcause
  case getByte a =>
    obtain ⟨rfl, hread⟩ := hcause
    obtain ⟨hrange, hlow, hsize⟩ := romRange_cause hread
    exact ⟨rfl, hrange, hlow, hsize, .inl rfl⟩
  case getWord a =>
    rcases hcause with ⟨rfl, hread⟩ | ⟨rfl, hadvance⟩ | ⟨rfl, hread⟩
    · obtain ⟨hrange, hlow, hsize⟩ := romRange_cause hread
      exact ⟨rfl, hrange, hlow, hsize, .inr (.inl ⟨a, rfl, .inl rfl⟩)⟩
    · obtain ⟨hover, htop⟩ := addrOverflow_cause_one hadvance
      exact ⟨rfl, hover, .inl ⟨htop, rfl⟩⟩
    · obtain ⟨hrange, hlow, hsize⟩ := romRange_cause hread
      exact ⟨rfl, hrange, hlow, hsize, .inr (.inl ⟨a, rfl, .inr rfl⟩)⟩
  case setWord a w =>
    obtain ⟨hmode, rfl, hadvance⟩ := hcause
    obtain ⟨hover, htop⟩ := addrOverflow_cause_one hadvance
    exact ⟨rfl, hover, .inr (.inl ⟨htop, hmode, w, rfl⟩)⟩
  case incrementByte =>
    rcases hcause with ⟨rfl, hread⟩ | ⟨rfl, hadvance⟩
    · obtain ⟨hrange, hlow, hsize⟩ := romRange_cause hread
      exact ⟨rfl, hrange, hlow, hsize, .inr (.inr (.inl ⟨rfl, rfl⟩))⟩
    · obtain ⟨hover, htop⟩ := addrOverflow_cause_one hadvance
      exact ⟨rfl, hover, .inr (.inr (.inl ⟨htop, rfl, rfl⟩))⟩
  case incrementWord =>
    rcases hcause with ⟨rfl, hread⟩ | ⟨rfl, hadvance⟩ | ⟨rfl, hread⟩
    · obtain ⟨hrange, hlow, hsize⟩ := romRange_cause hread
      exact ⟨rfl, hrange, hlow, hsize, .inr (.inr (.inr ⟨rfl, .inl rfl⟩))⟩
    · obtain ⟨hover, htop⟩ := addrOverflow_cause_two hadvance
      exact ⟨rfl, hover, .inr (.inr (.inr ⟨htop, rfl, rfl⟩))⟩
    · obtain ⟨hrange, hlow, hsize⟩ := romRange_cause hread
      exact ⟨rfl, hrange, hlow, hsize, .inr (.inr (.inr ⟨rfl, .inr rfl⟩))⟩
  case tileDecode n =>
    obtain ⟨rfl, hsize⟩ := hcause
    exact ⟨rfl, rfl, hsize⟩
  case tileGet T x y =>
    obtain ⟨rfl, hcoord⟩ := hcause
    exact ⟨rfl, hcoord, .inl ⟨T, rfl⟩⟩
  case colorize T pal =>
    obtain ⟨k, rfl, hbad⟩ := hcause
    exact ⟨rfl, hbad, T, pal, rfl, Vector.mem_toList_iff.2 (Vector.getElem_mem k.isLt)⟩
  case coloredGet C x y =>
    obtain ⟨rfl, hcoord⟩ := hcause
    exact ⟨rfl, hcoord, .inr ⟨C, rfl⟩⟩

/-! ### Their order -/

/-- Settles O9, clause by clause: the steps before the one that faults answer. -/
theorem firstFaultReachedIsRaised : Obligations.FirstFaultReachedIsRaised := by
  intro s
  refine ⟨fun a hread => ?_, fun a hread hadvance => ?_, fun a hread hadvance hhigh => ?_,
    fun a w => exec_setWord_split_error w, exec_incrementByte_read_error, exec_incrementByte_advance_error,
    fun f h => ?_, fun hread hhigh hone htwo => ?_, fun T pal k hbad hlower => ?_,
    fun T x y => exec_tileGet_error T, fun C x y => exec_coloredGet_error C⟩
  · exact exec_getWord_of_error (readWord_low_error hread)
  · exact exec_getWord_of_error (readWord_advance_error hread hadvance)
  · exact exec_getWord_of_error (readWord_high_error hread hadvance hhigh)
  · exact exec_incrementWord_read_error (readWord_error_of_exec_getWord h)
  · exact exec_incrementWord_advance_error (readWord_ok hread hone hhigh) htwo
  · exact exec_colorize_of_error (resolvePalette_error _ pal k hbad hlower)

/-! ### Diagnostics -/

/-- A read emits at most its own event, at an unimplemented address (R62). -/
theorem mem_readDiag (h : e ∈ readDiag a) :
    e = { kind := .unmappedRead, addr := a } ∧ 0x4000 ≤ a.toNat ∧ a.toNat < 0x8000 := by
  unfold readDiag at h
  split at h
  · next hrange => exact ⟨List.mem_singleton.1 h, hrange⟩
  · cases h

/-- A write emits at most its own event, of the kind of its region (R63). -/
theorem mem_writeDiag (h : e ∈ writeDiag a) :
    (e = { kind := .romWrite, addr := a } ∧ 0x8000 ≤ a.toNat) ∨
    (e = { kind := .unmappedWrite, addr := a } ∧ 0x4000 ≤ a.toNat ∧ a.toNat < 0x8000) := by
  unfold writeDiag at h
  split at h
  · next hrom => exact .inl ⟨List.mem_singleton.1 h, hrom⟩
  · next hrom =>
    split at h
    · next hlow => exact .inr ⟨List.mem_singleton.1 h, hlow, Nat.not_le.1 hrom⟩
    · cases h

theorem length_readDiag_le (a : Addr) : (readDiag a).length ≤ 1 := by
  unfold readDiag
  split <;> simp

theorem length_writeDiag_le (a : Addr) : (writeDiag a).length ≤ 1 := by
  unfold writeDiag
  split
  · simp
  · split <;> simp

/-- Where a word write puts its high byte (R126). -/
def highByteAddr (c : Config) (a : Addr) : Addr :=
  match c.setWordMode with
  | .sameAddress => a
  | .split       => a + 1

/-- The diagnostics that an operation emits when it raises no fault. -/
def emittedDiag (s : State) : Instr → List DiagEvent
  | .getByte a     => readDiag a
  | .getWord a     => readDiag a ++ readDiag (a + 1)
  | .setByte a _   => writeDiag a
  | .setWord a _   => writeDiag a ++ writeDiag (highByteAddr s.cfg a)
  | .incrementByte => readDiag s.pc
  | .incrementWord => readDiag s.pc ++ readDiag (s.pc + 1)
  | .pushByte _ | .pushWord _ | .popByte | .popWord | .oamRead _ | .oamWrite _ _ | .oamSync | .tileDecode _
  | .tileGet _ _ _ | .colorize _ _ | .coloredGet _ _ _ | .attrDecode _ | .attrEncode _ => []

theorem LeavesUpToResponse.diag (hu : LeavesUpToResponse i s u) : u.diag = s.diag ++ emittedDiag s i := by
  cases i <;> simp only [LeavesUpToResponse] at hu
  case setByte a v => rw [hu, memWrite_diag, emittedDiag]
  case setWord a w =>
    rcases hu with ⟨hmode, rfl⟩ | ⟨hmode, rfl⟩
    all_goals rw [memWrite_diag, memWrite_diag, List.append_assoc, emittedDiag, highByteAddr, hmode]
  case oamSync => rw [hu, syncOam_frame, emittedDiag, List.append_nil]
  all_goals subst hu; simp [emittedDiag]

theorem length_emittedDiag_le (s : State) (i : Instr) : (emittedDiag s i).length ≤ 2 := by
  cases i <;> simp only [emittedDiag, List.length_append, List.length_nil]
  case getByte a => exact Nat.le_succ_of_le (length_readDiag_le a)
  case getWord a => exact Nat.add_le_add (length_readDiag_le a) (length_readDiag_le (a + 1))
  case setByte a v => exact Nat.le_succ_of_le (length_writeDiag_le a)
  case setWord a w => exact Nat.add_le_add (length_writeDiag_le a) (length_writeDiag_le _)
  case incrementByte => exact Nat.le_succ_of_le (length_readDiag_le s.pc)
  case incrementWord => exact Nat.add_le_add (length_readDiag_le s.pc) (length_readDiag_le (s.pc + 1))
  all_goals decide

/-- The operation reads the byte at `b`. -/
abbrev ReadsAt (s : State) (i : Instr) (b : Addr) : Prop :=
  i = .getByte b ∨ (∃ a, i = .getWord a ∧ (b = a ∨ b = a + 1)) ∨ (i = .incrementByte ∧ b = s.pc) ∨
    (i = .incrementWord ∧ (b = s.pc ∨ b = s.pc + 1))

/-- The operation writes the byte at `b`. -/
abbrev WritesAt (s : State) (i : Instr) (b : Addr) : Prop :=
  (∃ v, i = .setByte b v) ∨ ∃ a w, i = .setWord a w ∧ (b = a ∨ (s.cfg.setWordMode = .split ∧ b = a + 1))

theorem writesAt_highByteAddr (s : State) (a : Addr) (w : Word) : WritesAt s (.setWord a w) (highByteAddr s.cfg a) := by
  refine .inr ⟨a, w, rfl, ?_⟩
  unfold highByteAddr
  cases hmode : s.cfg.setWordMode with
  | sameAddress => exact .inl rfl
  | split => exact .inr ⟨rfl, rfl⟩

/-- An emitted event is of a read or of a write that the operation itself makes. -/
theorem mem_emittedDiag (h : e ∈ emittedDiag s i) :
    (∃ b, e ∈ readDiag b ∧ ReadsAt s i b) ∨ (∃ b, e ∈ writeDiag b ∧ WritesAt s i b) := by
  cases i <;> simp only [emittedDiag, List.mem_append, List.not_mem_nil] at h
  case getByte a => exact .inl ⟨a, h, .inl rfl⟩
  case getWord a =>
    rcases h with h | h
    · exact .inl ⟨a, h, .inr (.inl ⟨a, rfl, .inl rfl⟩)⟩
    · exact .inl ⟨a + 1, h, .inr (.inl ⟨a, rfl, .inr rfl⟩)⟩
  case setByte a v => exact .inr ⟨a, h, .inl ⟨v, rfl⟩⟩
  case setWord a w =>
    rcases h with h | h
    · exact .inr ⟨a, h, .inr ⟨a, w, rfl, .inl rfl⟩⟩
    · exact .inr ⟨_, h, writesAt_highByteAddr s a w⟩
  case incrementByte => exact .inl ⟨s.pc, h, .inr (.inr (.inl ⟨rfl, rfl⟩))⟩
  case incrementWord =>
    rcases h with h | h
    · exact .inl ⟨s.pc, h, .inr (.inr (.inr ⟨rfl, .inl rfl⟩))⟩
    · exact .inl ⟨s.pc + 1, h, .inr (.inr (.inr ⟨rfl, .inr rfl⟩))⟩

/-- Settles O10: what an operation emits (`LeavesUpToResponse.diag`) is at most two events, each of its own reads or
writes. -/
theorem diagnosticsAreOnlyAppended : Obligations.DiagnosticsAreOnlyAppended := by
  intro i s t _ h ht
  obtain ⟨r, u, rfl, hu⟩ := exec_unfaulted h ht
  refine ⟨emittedDiag s i, hu.diag, length_emittedDiag_le s i, fun e he => ?_⟩
  rcases mem_emittedDiag he with ⟨b, hread, hat⟩ | ⟨b, hwrite, hat⟩
  · obtain ⟨rfl, hrange⟩ := mem_readDiag hread
    exact ⟨hrange, hat⟩
  · rcases mem_writeDiag hwrite with ⟨rfl, hrange⟩ | ⟨rfl, hrange⟩
    · exact ⟨hrange, hat⟩
    · exact ⟨hrange, hat⟩

/-! ### The refusal mark, the configuration, and success -/

/-- An operation changes neither the configuration nor the refusal mark, whether it answers or faults (R303, R357). -/
theorem exec_keeps_cfg_mark (h : exec i s = .next t) : t.cfg = s.cfg ∧ t.refusalMark = s.refusalMark := by
  rcases exec_inversion h with ⟨r, u, rfl, -, hu⟩ | ⟨f, rfl, -⟩
  · obtain ⟨-, hcfg, -, hmark⟩ := hu.ports
    exact ⟨hcfg, hmark⟩
  · exact ⟨rfl, rfl⟩

/-- A step keeps the configuration, and its only change of the refusal mark is to set it. -/
theorem step_keeps_cfg_mark (h : step s = .next t) :
    t.cfg = s.cfg ∧ (t.refusalMark = s.refusalMark ∨ t.refusalMark = true) := by
  obtain ⟨-, ⟨-, rfl⟩ | ⟨v, rest, -, rfl⟩ | ⟨v, rest, -, rfl⟩ | ⟨r, rest, i, -, -, hexec⟩ | ⟨r, rest, op, -, -, rfl⟩⟩ :=
    step_cases h
  · exact ⟨rfl, .inl rfl⟩
  · exact ⟨rfl, .inl rfl⟩
  · exact ⟨rfl, .inl rfl⟩
  · obtain ⟨hcfg, hmark⟩ := exec_keeps_cfg_mark hexec
    exact ⟨hcfg, .inl hmark⟩
  · exact ⟨rfl, .inr rfl⟩

/-- Settles O20: neither change of the mark clears it. -/
theorem refusalMarkIsKept : Obligations.RefusalMarkIsKept := by
  intro s t h hs
  obtain ⟨-, hsame | hset⟩ := step_keeps_cfg_mark h
  · exact hsame.trans hs
  · exact hset

/-- Settles O5, from what a step keeps (`step_keeps_cfg_mark`). -/
theorem configurationNeverChanges : Obligations.ConfigurationNeverChanges := by
  intro s t h
  obtain ⟨hcfg, -⟩ := step_keeps_cfg_mark h
  exact hcfg

theorem not_successful_of_fault {f : FaultRecord} (h : s.fault = some f) : ¬ s.Successful := by
  rintro ⟨hfault, -⟩
  rw [h] at hfault
  cases hfault

theorem not_successful_of_mark (h : s.refusalMark = true) : ¬ s.Successful := by
  rintro ⟨-, hmark⟩
  rw [h] at hmark
  cases hmark

/-- A step starts in a state without a fault, and keeps a refusal mark. -/
theorem successful_of_step (h : step s = .next t) (ht : t.Successful) : s.Successful := by
  obtain ⟨hfault, -⟩ := step_cases h
  exact ⟨hfault, Bool.eq_false_iff.2 fun hs => not_successful_of_mark (refusalMarkIsKept s t h hs) ht⟩

/-- A run of `k + 1` steps that answers a next state took a first step. -/
theorem run_succ_inversion {M : Host.Core} {k : Nat} {s t : M.State} (h : M.run (k + 1) s = .next t) :
    ∃ u, M.step s = .next u ∧ M.run k u = .next t := by
  unfold Host.Core.run at h
  split at h
  · next u hstep => exact ⟨u, hstep, h⟩
  · cases h
  · cases h

theorem successful_of_run (k : Nat) (h : Host.Core.run Sys2Proof.core k s = .next t) (ht : t.Successful) :
    s.Successful := by
  induction k generalizing s with
  | zero => exact Host.Outcome.next.inj h ▸ ht
  | succ k ih =>
    obtain ⟨u, hstep, hrun⟩ := run_succ_inversion h
    exact successful_of_step hstep (ih hrun)

/-- Settles O58: success goes back over a step and over a run (`successful_of_run`), and a refusal and a fault each set the
field that denies it. -/
theorem faultedOrRefusedRunsNeverSucceed : Obligations.FaultedOrRefusedRunsNeverSucceed := by
  refine ⟨fun s f => not_successful_of_fault, fun s => not_successful_of_mark, fun s t => successful_of_step,
    fun k s t => successful_of_run k,
    fun s t r op rest hi hd h ht => ?_, fun i s t f h hr ht => ?_⟩
  · obtain ⟨hfault, -⟩ := step_cases h
    rw [step_reserved hfault hi hd] at h
    obtain rfl := Host.Outcome.next.inj h
    exact not_successful_of_mark rfl ht
  · rcases exec_inversion h with ⟨q, u, rfl, hq, -⟩ | ⟨g, rfl, -⟩
    · exact hq f (Option.some.inj hr)
    · exact not_successful_of_fault rfl ht

end Sys2Proof.Machine
end

section
/-! PROOFS. Startup and hazards (70_reset_and_hazards.md): the reset table (R350, R352), the machine's own reset state, and
the stale latch after a direct table write (R363). -/

namespace Sys2Proof.Machine

variable {s : State} {a : Addr}

/-! ### The reset table -/

/-- Every OAM byte after startup is the default entry's (R41). -/
theorem oamGet_init (c : Config) (i : Byte) :
    oamGet (State.init c) i = entryByte OamEntry.atReset (oamFieldOf i) := by
  simp [oamGet, State.init]

/-- The default entry's bytes: only the attribute byte is not 0x00 (R41). -/
theorem entryByte_atReset (i : Byte) :
    entryByte OamEntry.atReset (oamFieldOf i) = if i.toNat % 4 = 2 then 0x20 else 0x00 := by
  simp only [← oamFieldOf_attr_iff]
  cases oamFieldOf i <;> rfl

/-- Settles O1: the fields are those of `State.init`, and the OAM bytes are the default entry's. -/
theorem resetLeavesTheStatedState : Obligations.ResetLeavesTheStatedState := by
  intro c
  refine ⟨rfl, rfl, rfl, rfl, rfl, rfl, rfl, rfl, rfl, fun e => ?_, fun i => ?_⟩
  · exact Vector.getElem_replicate e.isLt
  · rw [oamGet_init, entryByte_atReset]

/-- Settles O2: the OAM byte at address 0x00 is no attribute byte. -/
theorem latchAgreesAtReset : Obligations.LatchAgreesAtReset := by
  intro c
  refine ⟨?_, rfl⟩
  rw [oamGet_init, entryByte_atReset]
  rfl

/-- Settles O57: `State.reset` is defined as that state, and `Config.atReset` holds R12's defaults. -/
theorem machineResetIsTheStateAfterStartup : Obligations.MachineResetIsTheStateAfterStartup :=
  ⟨rfl, rfl, rfl, rfl, rfl, rfl⟩

/-! ### The stale latch -/

/-- A CPU read of the OAM data register sees `oam_data`, whatever OAM holds (R244). -/
theorem seenByte_dataRegister (hlow : 0x2000 ≤ a.toNat) (hhigh : a.toNat < 0x4000)
    (hdata : a.toNat % 8 = s.cfg.oamDataSel.toNat) (draw : Nat) : seenByte s a draw = s.oamData := by
  rw [seenByte, if_neg (Nat.not_lt.2 hlow), if_pos hhigh, if_pos hdata]

/-- Settles O54: the table write leaves `oam_data` alone, and the read answers it (`seenByte_dataRegister`). -/
theorem directOamWriteLeavesTheLatchStale : Obligations.DirectOamWriteLeavesTheLatchStale := by
  intro s v a hlow hhigh hdata
  have hread : Readable s.cfg a := .inl (by omega)
  have hseen := seenByte_dataRegister (s := oamSet s.oamAddr v s) hlow hhigh hdata s.draws
  exact ⟨_, _, exec_oamWrite s.oamAddr v s, exec_getByte_ok hread, congrArg (fun v => some (Response.byte v)) hseen, rfl⟩

end Sys2Proof.Machine
end
